-- ==== Sys2Proof/Word.lean ====
section
/-! DEFINITION. The widths of the machine (00_scope.md rules R7 and R8): a byte of 8 bits and an address of
16 bits. Every register but PC is a byte. -/

namespace Sys2Proof

/-- A register, flag byte or memory byte: 8 bits, unsigned (rule R8 `u8`). -/
abbrev Byte := BitVec 8

/-- An address, the program counter or a little-endian word: 16 bits, unsigned (rule R8 `u16`). -/
abbrev Addr := BitVec 16

end Sys2Proof
end

