-- ==== Sys2Proof/Config.lean ====
section
/-! DEFINITION. The implementation parameters of 00_scope.md rule R7: the two profiles, the load origin, the size
of the address space, and the memory contents at construction, which the spec leaves arbitrary. Which profile the
fixed name `step` is built with is `Sys2Proof.builtOpset` in Decode.lean (log entry 1). -/

namespace Sys2Proof

/-- The parameter `OPSET` (rule R7, decision D1): which dispatch table the machine is built with. The model's
functions take it as an argument. -/
inductive Opset where
  /-- The document's four opcodes, the normative machine (rule R74). -/
  | base
  /-- The four and the 42 opcodes of the optional profile (rule R140). -/
  | ext
  deriving DecidableEq, Repr

/-- `ORIGIN`, where `load` puts a program and sets PC (rules R7, R54; decision D8). -/
def Config.origin : Addr := 0x8000#16

/-- The number of addresses of the one address space (rules R7, R40). -/
def Config.addressSpace : Nat := 0x10000

/-- `MEM_INIT` (rule R7, decision D7): the byte every address holds at construction. The spec leaves it arbitrary,
so this is a free value, a constant without a body: no proof can learn any byte of it. DESIGN CHOICE, log entry 2. -/
opaque Config.memInit : Addr → Byte

end Sys2Proof
end

