-- ==== Sys2Proof/Syntax.lean ====
section
/-! DEFINITION. The instructions: one constructor for each of the 46 rows of spec/opcode_table.json (30_encoding.md
rule R74, 45_ext_addressing.md rule R140), with the operand bytes of the row's format (rules R71 and R141) as its
fields: `imm8`, `zp8`, or `lo8` and `hi8`, low byte first. -/

namespace Sys2Proof

/-- An instruction with its operand bytes. A constructor's name is the mnemonic and its addressing mode. -/
inductive Instr where
  /-- `BRK`, opcode 0x00, IMP, rule R135. -/
  | brk
  /-- `LDA #$nn`, opcode 0xA9, IMM, rule R120. -/
  | ldaImm (imm8 : Byte)
  /-- `TAX`, opcode 0xAA, IMP, rule R125. -/
  | tax
  /-- `INX`, opcode 0xE8, IMP, rule R130. -/
  | inx
  /-- `LDA $nn`, opcode 0xA5, ZPG, rule R155. -/
  | ldaZp (zp8 : Byte)
  /-- `LDA $nn,X`, opcode 0xB5, ZPG, rule R155. -/
  | ldaZpX (zp8 : Byte)
  /-- `LDA $nnnn`, opcode 0xAD, ABS, rule R155. -/
  | ldaAbs (lo8 hi8 : Byte)
  /-- `LDA $nnnn,X`, opcode 0xBD, ABS, rule R155. -/
  | ldaAbsX (lo8 hi8 : Byte)
  /-- `LDA $nnnn,Y`, opcode 0xB9, ABS, rule R155. -/
  | ldaAbsY (lo8 hi8 : Byte)
  /-- `LDA ($nn,X)`, opcode 0xA1, ZPG, rule R155. -/
  | ldaIndX (zp8 : Byte)
  /-- `LDA ($nn),Y`, opcode 0xB1, ZPG, rule R155. -/
  | ldaIndY (zp8 : Byte)
  /-- `STA $nn`, opcode 0x85, ZPG, rule R156. -/
  | staZp (zp8 : Byte)
  /-- `STA $nn,X`, opcode 0x95, ZPG, rule R156. -/
  | staZpX (zp8 : Byte)
  /-- `STA $nnnn`, opcode 0x8D, ABS, rule R156. -/
  | staAbs (lo8 hi8 : Byte)
  /-- `STA $nnnn,X`, opcode 0x9D, ABS, rule R156. -/
  | staAbsX (lo8 hi8 : Byte)
  /-- `STA $nnnn,Y`, opcode 0x99, ABS, rule R156. -/
  | staAbsY (lo8 hi8 : Byte)
  /-- `STA ($nn,X)`, opcode 0x81, ZPG, rule R156. -/
  | staIndX (zp8 : Byte)
  /-- `STA ($nn),Y`, opcode 0x91, ZPG, rule R156. -/
  | staIndY (zp8 : Byte)
  /-- `ADC #$nn`, opcode 0x69, IMM, rule R165. -/
  | adcImm (imm8 : Byte)
  /-- `ADC $nn`, opcode 0x65, ZPG, rule R165. -/
  | adcZp (zp8 : Byte)
  /-- `ADC $nn,X`, opcode 0x75, ZPG, rule R165. -/
  | adcZpX (zp8 : Byte)
  /-- `ADC $nnnn`, opcode 0x6D, ABS, rule R165. -/
  | adcAbs (lo8 hi8 : Byte)
  /-- `ADC $nnnn,X`, opcode 0x7D, ABS, rule R165. -/
  | adcAbsX (lo8 hi8 : Byte)
  /-- `ADC $nnnn,Y`, opcode 0x79, ABS, rule R165. -/
  | adcAbsY (lo8 hi8 : Byte)
  /-- `ADC ($nn,X)`, opcode 0x61, ZPG, rule R165. -/
  | adcIndX (zp8 : Byte)
  /-- `ADC ($nn),Y`, opcode 0x71, ZPG, rule R165. -/
  | adcIndY (zp8 : Byte)
  /-- `SBC #$nn`, opcode 0xE9, IMM, rule R166. -/
  | sbcImm (imm8 : Byte)
  /-- `SBC $nn`, opcode 0xE5, ZPG, rule R166. -/
  | sbcZp (zp8 : Byte)
  /-- `SBC $nn,X`, opcode 0xF5, ZPG, rule R166. -/
  | sbcZpX (zp8 : Byte)
  /-- `SBC $nnnn`, opcode 0xED, ABS, rule R166. -/
  | sbcAbs (lo8 hi8 : Byte)
  /-- `SBC $nnnn,X`, opcode 0xFD, ABS, rule R166. -/
  | sbcAbsX (lo8 hi8 : Byte)
  /-- `SBC $nnnn,Y`, opcode 0xF9, ABS, rule R166. -/
  | sbcAbsY (lo8 hi8 : Byte)
  /-- `SBC ($nn,X)`, opcode 0xE1, ZPG, rule R166. -/
  | sbcIndX (zp8 : Byte)
  /-- `SBC ($nn),Y`, opcode 0xF1, ZPG, rule R166. -/
  | sbcIndY (zp8 : Byte)
  /-- `ASL A`, opcode 0x0A, ACC, rule R175. -/
  | aslAcc
  /-- `ASL $nn`, opcode 0x06, ZPG, rule R176. -/
  | aslZp (zp8 : Byte)
  /-- `ASL $nn,X`, opcode 0x16, ZPG, rule R176. -/
  | aslZpX (zp8 : Byte)
  /-- `ASL $nnnn`, opcode 0x0E, ABS, rule R176. -/
  | aslAbs (lo8 hi8 : Byte)
  /-- `ASL $nnnn,X`, opcode 0x1E, ABS, rule R176. -/
  | aslAbsX (lo8 hi8 : Byte)
  /-- `LSR A`, opcode 0x4A, ACC, rule R177. -/
  | lsrAcc
  /-- `LSR $nn`, opcode 0x46, ZPG, rule R178. -/
  | lsrZp (zp8 : Byte)
  /-- `LSR $nn,X`, opcode 0x56, ZPG, rule R178. -/
  | lsrZpX (zp8 : Byte)
  /-- `LSR $nnnn`, opcode 0x4E, ABS, rule R178. -/
  | lsrAbs (lo8 hi8 : Byte)
  /-- `LSR $nnnn,X`, opcode 0x5E, ABS, rule R178. -/
  | lsrAbsX (lo8 hi8 : Byte)
  /-- `BIT $nn`, opcode 0x24, ZPG, rule R179. -/
  | bitZp (zp8 : Byte)
  /-- `BIT $nnnn`, opcode 0x2C, ABS, rule R179. -/
  | bitAbs (lo8 hi8 : Byte)
  deriving DecidableEq, Repr

/-- The addressing modes that name a memory byte, each with its operand bytes (45_ext_addressing.md rules R144 to
R150). -/
inductive MemOperand where
  /-- Zero page, rule R144. -/
  | zp (zp8 : Byte)
  /-- Zero page indexed by X, rule R145. -/
  | zpX (zp8 : Byte)
  /-- Absolute, rule R146. -/
  | abs (lo8 hi8 : Byte)
  /-- Absolute indexed by X, rule R147. -/
  | absX (lo8 hi8 : Byte)
  /-- Absolute indexed by Y, rule R148. -/
  | absY (lo8 hi8 : Byte)
  /-- (Indirect,X), rule R149. -/
  | indX (zp8 : Byte)
  /-- (Indirect),Y, rule R150. -/
  | indY (zp8 : Byte)
  deriving DecidableEq, Repr

end Sys2Proof
end

