-- ==== Sys2Proof/WellFormed.lean ====
section
/-! DEFINITION. Which instructions a profile has. The operand bytes of an instruction are bytes by type, so the one
check left is the profile: with `OPSET = BASE` only the four instructions of 30_encoding.md rule R74 exist, with
`OPSET = EXT` all 46 (45_ext_addressing.md rule R140). -/

namespace Sys2Proof

/-- The four instructions of the normative machine (rule R74). -/
def Instr.isBase : Instr → Bool
  | .brk | .ldaImm _ | .tax | .inx => true
  | .ldaZp _ | .ldaZpX _ | .ldaAbs _ _ | .ldaAbsX _ _ | .ldaAbsY _ _ | .ldaIndX _ | .ldaIndY _ => false
  | .staZp _ | .staZpX _ | .staAbs _ _ | .staAbsX _ _ | .staAbsY _ _ | .staIndX _ | .staIndY _ => false
  | .adcImm _ | .adcZp _ | .adcZpX _ | .adcAbs _ _ | .adcAbsX _ _ | .adcAbsY _ _ | .adcIndX _ | .adcIndY _ => false
  | .sbcImm _ | .sbcZp _ | .sbcZpX _ | .sbcAbs _ _ | .sbcAbsX _ _ | .sbcAbsY _ _ | .sbcIndX _ | .sbcIndY _ => false
  | .aslAcc | .aslZp _ | .aslZpX _ | .aslAbs _ _ | .aslAbsX _ _ => false
  | .lsrAcc | .lsrZp _ | .lsrZpX _ | .lsrAbs _ _ | .lsrAbsX _ _ => false
  | .bitZp _ | .bitAbs _ _ => false

/-- An instruction is well formed in a profile when the profile has it (rules R74, R76, R140). -/
def Instr.wellFormed : Opset → Instr → Bool
  | .base, i => i.isBase
  | .ext, _ => true

end Sys2Proof
end

