-- ==== Sys2Proof/Decode.lean ====
section
/-! DEFINITION. Decoding and encoding (30_encoding.md, 45_ext_addressing.md section 1). Decoding is a whole-byte
lookup of the opcode in the dispatch table of the profile (rule R73); the entry gives the number of operand bytes
(rule R72). The encoder is written from the same rows, constructor by constructor. -/

namespace Sys2Proof

/-! ## The dispatch table -/

/-- A dispatch-table entry: the format (rules R71 and R141), which fixes the number of operand bytes, and the
instruction the operand bytes make. -/
inductive Entry where
  /-- IMP: one byte, no operand (rule R78). -/
  | imp (i : Instr)
  /-- ACC: one byte, the operand is A (rule R142). -/
  | acc (i : Instr)
  /-- IMM: two bytes, byte 1 is the operand as it is (rule R77). -/
  | imm (f : Byte → Instr)
  /-- ZPG: two bytes, byte 1 is an address in page zero (rule R141). -/
  | zpg (f : Byte → Instr)
  /-- ABS: three bytes, byte 1 the low and byte 2 the high half of an address (rule R141). -/
  | abs (f : Byte → Byte → Instr)

/-- One row of the dispatch table: an opcode byte and its entry. -/
structure Row where
  /-- Byte 0, all eight bits of it (rule R73). -/
  opcode : Byte
  /-- What the byte decodes to. -/
  entry : Entry

/-- The BASE dispatch table: exactly four entries (rule R74). -/
def baseTable : List Row :=
  [
    ⟨0x00#8, .imp .brk⟩, ⟨0xA9#8, .imm .ldaImm⟩, ⟨0xAA#8, .imp .tax⟩, ⟨0xE8#8, .imp .inx⟩
  ]

/-- The EXT-only entries of LDA (rule R140; rule R155). -/
def ldaRows : List Row :=
  [
    ⟨0xA5#8, .zpg .ldaZp⟩, ⟨0xB5#8, .zpg .ldaZpX⟩, ⟨0xAD#8, .abs .ldaAbs⟩, ⟨0xBD#8, .abs .ldaAbsX⟩,
    ⟨0xB9#8, .abs .ldaAbsY⟩, ⟨0xA1#8, .zpg .ldaIndX⟩, ⟨0xB1#8, .zpg .ldaIndY⟩
  ]

/-- The EXT-only entries of STA (rule R140; rule R156). -/
def staRows : List Row :=
  [
    ⟨0x85#8, .zpg .staZp⟩, ⟨0x95#8, .zpg .staZpX⟩, ⟨0x8D#8, .abs .staAbs⟩, ⟨0x9D#8, .abs .staAbsX⟩,
    ⟨0x99#8, .abs .staAbsY⟩, ⟨0x81#8, .zpg .staIndX⟩, ⟨0x91#8, .zpg .staIndY⟩
  ]

/-- The EXT-only entries of ADC (rule R140; rule R165). -/
def adcRows : List Row :=
  [
    ⟨0x69#8, .imm .adcImm⟩, ⟨0x65#8, .zpg .adcZp⟩, ⟨0x75#8, .zpg .adcZpX⟩, ⟨0x6D#8, .abs .adcAbs⟩,
    ⟨0x7D#8, .abs .adcAbsX⟩, ⟨0x79#8, .abs .adcAbsY⟩, ⟨0x61#8, .zpg .adcIndX⟩, ⟨0x71#8, .zpg .adcIndY⟩
  ]

/-- The EXT-only entries of SBC (rule R140; rule R166). -/
def sbcRows : List Row :=
  [
    ⟨0xE9#8, .imm .sbcImm⟩, ⟨0xE5#8, .zpg .sbcZp⟩, ⟨0xF5#8, .zpg .sbcZpX⟩, ⟨0xED#8, .abs .sbcAbs⟩,
    ⟨0xFD#8, .abs .sbcAbsX⟩, ⟨0xF9#8, .abs .sbcAbsY⟩, ⟨0xE1#8, .zpg .sbcIndX⟩, ⟨0xF1#8, .zpg .sbcIndY⟩
  ]

/-- The EXT-only entries of ASL (rule R140; rules R175, R176). -/
def aslRows : List Row :=
  [
    ⟨0x0A#8, .acc .aslAcc⟩, ⟨0x06#8, .zpg .aslZp⟩, ⟨0x16#8, .zpg .aslZpX⟩, ⟨0x0E#8, .abs .aslAbs⟩,
    ⟨0x1E#8, .abs .aslAbsX⟩
  ]

/-- The EXT-only entries of LSR (rule R140; rules R177, R178). -/
def lsrRows : List Row :=
  [
    ⟨0x4A#8, .acc .lsrAcc⟩, ⟨0x46#8, .zpg .lsrZp⟩, ⟨0x56#8, .zpg .lsrZpX⟩, ⟨0x4E#8, .abs .lsrAbs⟩,
    ⟨0x5E#8, .abs .lsrAbsX⟩
  ]

/-- The EXT-only entries of BIT (rule R140; rule R179). -/
def bitRows : List Row :=
  [
    ⟨0x24#8, .zpg .bitZp⟩, ⟨0x2C#8, .abs .bitAbs⟩
  ]

/-- The 42 entries the optional profile adds (rule R140). -/
def extTable : List Row :=
  ldaRows ++ staRows ++ adcRows ++ sbcRows ++ aslRows ++ lsrRows ++ bitRows

/-- The dispatch table of a profile, a constant of the machine (rules R74, R76, R140). -/
def dispatchTable : Opset → List Row
  | .base => baseTable
  | .ext => baseTable ++ extTable

/-- `decode : u8 -> (mode, action) | none`, total on all 256 byte values (rules R73, R75, R93). -/
def dispatch (o : Opset) (op : Byte) : Option Entry :=
  ((dispatchTable o).find? fun r => r.opcode == op).map Row.entry

/-! ## Decoding a byte sequence -/

/-- Why a byte sequence is no instruction, by name. -/
inductive DecodeError where
  /-- There is no opcode byte. -/
  | noOpcode
  /-- The opcode byte has no entry in the profile's table (rule R75). -/
  | unimplemented (op : Byte)
  /-- The sequence ends before the last operand byte. -/
  | operandMissing (op : Byte)
  deriving DecidableEq, Repr

/-- The instruction an entry makes of the bytes after the opcode, with the bytes left over: operand bytes are taken
in ascending order (rule R49). `none` when one is missing. -/
def Entry.assemble : Entry → List Byte → Option (Instr × List Byte)
  | .imp i, rest => some (i, rest)
  | .acc i, rest => some (i, rest)
  | .imm f, b :: rest => some (f b, rest)
  | .zpg f, b :: rest => some (f b, rest)
  | .abs f, lo :: hi :: rest => some (f lo hi, rest)
  | .imm _, [] => none
  | .zpg _, [] => none
  | .abs _, [] => none
  | .abs _, [_] => none

/-- The first instruction of a byte sequence in a profile and the bytes after it (rules R70, R72, R73). -/
def decode (o : Opset) : List Byte → Except DecodeError (Instr × List Byte)
  | [] => .error .noOpcode
  | op :: rest =>
    match dispatch o op with
    | none => .error (.unimplemented op)
    | some e =>
      match e.assemble rest with
      | none => .error (.operandMissing op)
      | some r => .ok r

/-! ## Encoding -/

/-- The opcode byte of an instruction (rules R74, R140). -/
def Instr.opcode : Instr → Byte
  | .brk => 0x00#8
  | .ldaImm _ => 0xA9#8
  | .tax => 0xAA#8
  | .inx => 0xE8#8
  | .ldaZp _ => 0xA5#8
  | .ldaZpX _ => 0xB5#8
  | .ldaAbs _ _ => 0xAD#8
  | .ldaAbsX _ _ => 0xBD#8
  | .ldaAbsY _ _ => 0xB9#8
  | .ldaIndX _ => 0xA1#8
  | .ldaIndY _ => 0xB1#8
  | .staZp _ => 0x85#8
  | .staZpX _ => 0x95#8
  | .staAbs _ _ => 0x8D#8
  | .staAbsX _ _ => 0x9D#8
  | .staAbsY _ _ => 0x99#8
  | .staIndX _ => 0x81#8
  | .staIndY _ => 0x91#8
  | .adcImm _ => 0x69#8
  | .adcZp _ => 0x65#8
  | .adcZpX _ => 0x75#8
  | .adcAbs _ _ => 0x6D#8
  | .adcAbsX _ _ => 0x7D#8
  | .adcAbsY _ _ => 0x79#8
  | .adcIndX _ => 0x61#8
  | .adcIndY _ => 0x71#8
  | .sbcImm _ => 0xE9#8
  | .sbcZp _ => 0xE5#8
  | .sbcZpX _ => 0xF5#8
  | .sbcAbs _ _ => 0xED#8
  | .sbcAbsX _ _ => 0xFD#8
  | .sbcAbsY _ _ => 0xF9#8
  | .sbcIndX _ => 0xE1#8
  | .sbcIndY _ => 0xF1#8
  | .aslAcc => 0x0A#8
  | .aslZp _ => 0x06#8
  | .aslZpX _ => 0x16#8
  | .aslAbs _ _ => 0x0E#8
  | .aslAbsX _ _ => 0x1E#8
  | .lsrAcc => 0x4A#8
  | .lsrZp _ => 0x46#8
  | .lsrZpX _ => 0x56#8
  | .lsrAbs _ _ => 0x4E#8
  | .lsrAbsX _ _ => 0x5E#8
  | .bitZp _ => 0x24#8
  | .bitAbs _ _ => 0x2C#8

/-- The operand bytes of an instruction in ascending address order (rules R49, R71, R141). -/
def Instr.operandBytes : Instr → List Byte
  | .brk | .tax | .inx | .aslAcc | .lsrAcc => []
  | .ldaImm b | .ldaZp b | .ldaZpX b | .ldaIndX b | .ldaIndY b | .staZp b => [b]
  | .staZpX b | .staIndX b | .staIndY b | .adcImm b | .adcZp b | .adcZpX b => [b]
  | .adcIndX b | .adcIndY b | .sbcImm b | .sbcZp b | .sbcZpX b | .sbcIndX b => [b]
  | .sbcIndY b | .aslZp b | .aslZpX b | .lsrZp b | .lsrZpX b | .bitZp b => [b]
  | .ldaAbs lo hi | .ldaAbsX lo hi | .ldaAbsY lo hi | .staAbs lo hi | .staAbsX lo hi | .staAbsY lo hi => [lo, hi]
  | .adcAbs lo hi | .adcAbsX lo hi | .adcAbsY lo hi | .sbcAbs lo hi | .sbcAbsX lo hi | .sbcAbsY lo hi => [lo, hi]
  | .aslAbs lo hi | .aslAbsX lo hi | .lsrAbs lo hi | .lsrAbsX lo hi | .bitAbs lo hi => [lo, hi]

/-- The bytes of an instruction in ascending address order: the opcode first (rules R49, R70, R81). -/
def encode (i : Instr) : List Byte := i.opcode :: i.operandBytes

/-- The length of an instruction in bytes, 1 to 3 (rules R71, R141). -/
def Instr.length (i : Instr) : Nat := (encode i).length

/-! ## The profile of the fixed names, and the host's table words -/

/-- The profile the fixed names `step` and `decodeTableWord` are built with. DESIGN CHOICE, log entry 1: EXT, so that
every row of spec/opcode_table.json runs. The normative machine is `OPSET = BASE` (rule R6), and every function
and statement of the model that depends on the profile takes it as an argument. -/
def builtOpset : Opset := .ext

/-- The longest instruction in bytes (rule R141, format ABS). -/
def maxLength : Nat := 3

/-- The `n` lowest bytes of a number, lowest first: an instruction's bytes in ascending address order. -/
def bytesOf : Nat → Nat → List Byte
  | 0, _ => []
  | n + 1, w => BitVec.ofNat 8 w :: bytesOf n (w / 256)

/-- The bytes of a table word of `nbits` bits: the bits above are zero, up to the longest instruction. -/
def tableWordBytes (nbits w : Nat) : List Byte := bytesOf maxLength (w % 2 ^ nbits)

/-- The instruction the decoder reads from a table word, numbered as spec/opcode_table.json numbers it. -/
def decodeTableWord (nbits w : Nat) : Option Instr :=
  match decode builtOpset (tableWordBytes nbits w) with
  | .ok (i, _) => some i
  | .error _ => none

end Sys2Proof
end

