-- ==== Sys2Proof/Machine/State.lean ====
section
/-! DEFINITION. The state of the machine (10_state.md, complete list in rule R35), the reasons a command can stop,
and the state after construction. Plain data throughout. -/

namespace Sys2Proof.Machine

/-- The engine state `RUN` (10_state.md rule R32, 40_execution_cycle.md rule R90). -/
inductive RunState where
  /-- After construction and after `load`, before the first step. -/
  | reset
  /-- A step has been taken, and neither BRK nor an error condition has ended the run. -/
  | running
  /-- BRK was executed. Terminal. -/
  | halted
  /-- An error condition was raised during a step. Terminal. -/
  | faulted
  deriving DecidableEq, Repr

/-- The error conditions, a closed type with three constructors (60_exceptions.md rules R220 to R224). -/
inductive Condition where
  /-- Decode found no entry for `byte`, fetched from address `pc` (rule R221). -/
  | unimplementedOpcode (byte : Byte) (pc : Addr)
  /-- A fetch could not advance PC past 0xFFFF; `address` is 0x10000, a 17-bit quantity (rule R222). -/
  | addressOverrun (address : Nat)
  /-- A program of `length` bytes does not fit from `origin` (rule R223). Raised by the command `load` alone, as
  its result; it is never in ERR (log entry 8). -/
  | loadOverflow (origin : Addr) (length : Nat)
  deriving DecidableEq, Repr

/-- Memory, 65536 bytes (10_state.md rule R31, 20_memory.md rule R40): the bytes written since construction, as
address and value in strictly rising order of address. An address that is not listed holds no value of its own and
reads as MEM_INIT (Ops.lean `State.readByte`; log entry 2). -/
abbrev Memory := List Host.Cell

/-- The state of the machine: every element of rule R35. -/
structure State where
  /-- Accumulator (rule R10). -/
  a : Byte
  /-- Index register X (rule R11). -/
  x : Byte
  /-- Index register Y, reserved (rule R12). -/
  y : Byte
  /-- Stack pointer, reserved (rule R13). -/
  sp : Byte
  /-- Program counter (rule R14). -/
  pc : Addr
  /-- The packed status register, bits N V U B D I Z C from bit 7 to bit 0 (rules R19, R29). -/
  p : Byte
  /-- Memory (rule R31). -/
  mem : Memory
  /-- `RUN`, the engine state (rule R32). -/
  run : RunState
  /-- `ERR`, the error record (rule R33). `none` is the spec's "empty". -/
  err : Option Condition
  deriving DecidableEq, Repr

/-- Why the machine stops with an outcome fault: it never does, so there is no constructor. Each of the three error
conditions has a state after it (60_exceptions.md rules R223, R228; 50_interfaces.md rule R203) and is a next state of the
model, with the condition in ERR or in the command's result (log entries 3 and 8). Safe: nothing stops here. -/
inductive Fault where
  deriving DecidableEq, Repr

/-- Why a command is refused. -/
inductive Refusal where
  /-- Raised by an arm of `exec` for an instruction without a meaning; no arm of this model is one. Safe: the machine
  stops. -/
  | notModelled (mnemonic : String)
  /-- Raised by the memory component's word operations at address 0xFFFF, to which the spec gives no meaning
  (20_memory.md rule R46, decision D12). Safe: no result is given. No instruction performs a word access. -/
  | wordAccessAtTop
  /-- Raised by the host command `load` outside state Reset, to which the spec gives no meaning (50_interfaces.md rule
  R203, decision D6). Safe: no result is given. -/
  | loadOutsideReset
  deriving DecidableEq, Repr

/-- The state after construction (rules R35, R202, R250, R251): every register and flag zero, memory MEM_INIT,
`RUN = Reset`, `ERR` empty. -/
def State.reset : State where
  a := 0x00#8
  x := 0x00#8
  y := 0x00#8
  sp := 0x00#8
  pc := 0x0000#16
  p := 0x00#8
  mem := []
  run := .reset
  err := none

end Sys2Proof.Machine
end

