-- ==== Sys2Proof/Machine/Ops.lean ====
section
/-! DEFINITION. The named operations over memory and registers (20_memory.md), raising a condition (60_exceptions.md
rule R228), and the instruction-stream fetch (40_execution_cycle.md rule R92). The machine has no return from a
condition (rule R232), so there is no operation for one. -/

namespace Sys2Proof.Machine

/-! ## Memory as a list of cells -/

/-- The listed value of an address, `none` where nothing was written. -/
def Memory.find : Memory → Nat → Option Byte
  | [], _ => none
  | (k, w) :: m, n => if n = k then some w else Memory.find m n

/-- Lists a value at an address, in its place in the rising order, replacing a value listed there. -/
def Memory.write : Memory → Nat → Byte → Memory
  | [], n, v => [(n, v)]
  | (k, w) :: m, n, v =>
    if n < k then (n, v) :: (k, w) :: m
    else if n = k then (n, v) :: m
    else (k, w) :: Memory.write m n v

/-- Lists a byte sequence at consecutive rising addresses. -/
def Memory.writeList : Memory → Nat → List Byte → Memory
  | m, _, [] => m
  | m, n, b :: bs => Memory.writeList (m.write n b) (n + 1) bs

/-- The canonical form: addresses strictly rising, all inside the address space. An unlisted address holds no value
(it reads as the free MEM_INIT), so no entry can equal what an unlisted address holds (log entry 2). -/
abbrev Memory.wf (m : Memory) : Prop :=
  m.Pairwise (fun c d => c.1 < d.1) ∧ ∀ c ∈ m, c.1 < Config.addressSpace

/-- What an address that was never written reads as: its MEM_INIT byte (10_state.md rule R31, 20_memory.md R53). -/
def unlisted (addr : Addr) : Byte := Config.memInit addr

/-- Two bytes as a 16-bit value, `hi ++ lo` (00_scope.md rule R8). -/
def word (hi lo : Byte) : Addr := hi ++ lo

/-! ## Named updates of State -/

namespace State

/-- A <- v. -/
def setA (s : State) (v : Byte) : State := { s with a := v }

/-- X <- v. -/
def setX (s : State) (v : Byte) : State := { s with x := v }

/-- PC <- v; used by the fetch and by `load` only (10_state.md rule R14). -/
def setPc (s : State) (v : Addr) : State := { s with pc := v }

/-- P <- v, the whole packed byte. -/
def setP (s : State) (v : Byte) : State := { s with p := v }

/-- Replaces memory. -/
def setMem (s : State) (m : Memory) : State := { s with mem := m }

/-- RUN <- r. -/
def setRun (s : State) (r : RunState) : State := { s with run := r }

/-- ERR <- e. -/
def setErr (s : State) (e : Option Condition) : State := { s with err := e }

/-! ## The memory component -/

/-- `read_byte`, `MemRead(addr, 1)` (20_memory.md rule R42): no side effects, never fails. -/
def readByte (s : State) (addr : Addr) : Byte := (Memory.find s.mem addr.toNat).getD (unlisted addr)

/-- `write_byte`, `MemWrite(addr, 1, v)` (rule R43): never fails, no write protection. -/
def writeByte (s : State) (addr : Addr) (v : Byte) : State := s.setMem (Memory.write s.mem addr.toNat v)

/-- `read_word`, `MemRead(addr, 2)` (rules R44, R46): little-endian; refused at 0xFFFF (log
entry 6). -/
def readWord (s : State) (addr : Addr) : Host.Outcome Addr Fault Refusal :=
  if addr = 0xFFFF#16 then .refused .wordAccessAtTop
  else .next (word (s.readByte (addr + 1#16)) (s.readByte addr))

/-- `write_word`, `MemWrite(addr, 2, v)` (rules R45, R46, R52): the low byte first; refused at 0xFFFF. -/
def writeWord (s : State) (addr : Addr) (v : Addr) : Host.Outcome State Fault Refusal :=
  if addr = 0xFFFF#16 then .refused .wordAccessAtTop
  else .next ((s.writeByte addr (v.extractLsb' 0 8)).writeByte (addr + 1#16) (v.extractLsb' 8 8))

/-- The memory component's `load(origin, bytes)` (rule R47): the state after it, and the condition raised if the bytes do
not fit. It is a checked copy: when they do not fit, nothing is copied (decision D9, log entry 8). -/
def loadBytes (s : State) (origin : Addr) (bytes : List Byte) : State × Option Condition :=
  if Config.addressSpace < origin.toNat + bytes.length then (s, some (.loadOverflow origin bytes.length))
  else (s.setMem (Memory.writeList s.mem origin.toNat bytes), none)

/-- A table word's bytes stored from PC upward, for `withFetchWord`; bytes past 0xFFFF, where no address exists, are
left out. -/
def placeAtPc (s : State) (bytes : List Byte) : State :=
  s.setMem (Memory.writeList s.mem s.pc.toNat (bytes.take (Config.addressSpace - s.pc.toNat)))

/-! ## Raising a condition -/

/-- `raise E(info)` (60_exceptions.md rule R228): `ERR <- E(info); RUN <- Faulted`, and nothing else is saved or
changed. It is the machine's trap entry, the same for both step-time conditions. -/
def raise (s : State) (c : Condition) : State := (s.setErr (some c)).setRun .faulted

/-- `RUN` is Halted or Faulted (40_execution_cycle.md rule R90). -/
def terminal (s : State) : Bool :=
  match s.run with
  | .reset => false
  | .running => false
  | .halted => true
  | .faulted => true

end State

/-! ## Fetching an instruction -/

/-- The result of reading the instruction stream: a value and the state after, or the state a raised condition left. -/
inductive Fetched (α : Type) where
  /-- The read completed. -/
  | got (v : α) (s : State)
  /-- A condition was raised; the step ends in `s`. -/
  | raised (s : State)
  deriving DecidableEq, Repr

/-- Goes on with what was read, or keeps the raised condition. -/
def Fetched.andThen {α β : Type} (r : Fetched α) (k : α → State → Fetched β) : Fetched β :=
  match r with
  | .got v s => k v s
  | .raised s => .raised s

/-- `FetchByte()` (40_execution_cycle.md rule R92): reads the byte at PC and advances PC; at 0xFFFF the advance fails
and raises AddressOverrun(0x10000), with PC left at 0xFFFF (decision D4, log entry 4). -/
def fetchByte (s : State) : Fetched Byte :=
  if s.pc = 0xFFFF#16 then .raised (s.raise (.addressOverrun Config.addressSpace))
  else .got (s.readByte s.pc) (s.setPc (s.pc + 1#16))

/-- Fetches the operand bytes of a dispatch-table entry in ascending order (rules R49, R94, R142 to R150). -/
def fetchOperands (e : Entry) (s : State) : Fetched Instr :=
  match e with
  | .imp i => .got i s
  | .acc i => .got i s
  | .imm f => (fetchByte s).andThen fun b s1 => .got (f b) s1
  | .zpg f => (fetchByte s).andThen fun b s1 => .got (f b) s1
  | .abs f => (fetchByte s).andThen fun lo s1 => (fetchByte s1).andThen fun hi s2 => .got (f lo hi) s2

/-- The fetch and decode phases of a step (rules R91, R96, R230): the opcode byte, its table entry, the operand bytes.
An opcode byte without an entry raises UnimplementedOpcode with the address it was fetched from. What a condition leaves,
and which comes first, is log entry 9. -/
def fetchInstr (o : Opset) (s : State) : Fetched Instr :=
  (fetchByte s).andThen fun op s1 =>
    match dispatch o op with
    | none => .raised (s1.raise (.unimplementedOpcode op s.pc))
    | some e => fetchOperands e s1

end Sys2Proof.Machine
end

