-- ==== Sys2Proof/Machine/Operands.lean ====
section
/-! DEFINITION. The addressing-mode resolver for memory operands (45_ext_addressing.md rules R144 to R151). The
operand bytes are the instruction's own fields: fetching them is `fetchOperands` in Ops.lean. -/

namespace Sys2Proof.Machine

/-- An 8-bit address as an address in page zero, `zext_16` (rules R8, R144). -/
def pageZero (b : Byte) : Addr := b.zeroExtend 16

/-- The 16-bit pointer at a page-zero location: low byte first, and the step to the high byte wraps within page zero
(rules R149, R150). -/
def pointerAt (s : State) (b : Byte) : Addr :=
  word (s.readByte (pageZero (b + 1#8))) (s.readByte (pageZero b))

/-- `Resolve(mode)`: the effective address of a memory operand (rules R144 to R150). Sums wrap modulo 256 within page
zero and modulo 65536 elsewhere; none raises a condition (rule R151, decision D23, log entry 11). -/
def effectiveAddress (s : State) : MemOperand → Addr
  | .zp zp8 => pageZero zp8
  | .zpX zp8 => pageZero (zp8 + s.x)
  | .abs lo8 hi8 => word hi8 lo8
  | .absX lo8 hi8 => word hi8 lo8 + s.x.zeroExtend 16
  | .absY lo8 hi8 => word hi8 lo8 + s.y.zeroExtend 16
  | .indX zp8 => pointerAt s (zp8 + s.x)
  | .indY zp8 => pointerAt s zp8 + s.y.zeroExtend 16

/-- The operand byte of a memory operand, `MemRead(ea, 1)`. -/
def operandByte (s : State) (m : MemOperand) : Byte := s.readByte (effectiveAddress s m)

end Sys2Proof.Machine
end

