-- ==== Sys2Proof/Machine/Flags.lean ====
section
/-! DEFINITION. The status register's bits (10_state.md rule R19) and every flag computation of the spec: the
flag-update rule `SetZN` (40_execution_cycle.md rule R97), carry and overflow of ADC and SBC (47_ext_arithmetic.md
rules R165 and R166), the shifted-out bit (48_ext_shift_bit.md rules R175 to R178) and BIT's flags (rule R179). -/

namespace Sys2Proof.Machine

/-- The eight named bits of P (10_state.md rule R19). -/
inductive Flag where
  /-- Carry, bit 0 (rule R20). -/
  | c
  /-- Zero, bit 1 (rule R21). -/
  | z
  /-- Interrupt-Disable, bit 2 (rule R22). -/
  | i
  /-- Decimal, bit 3 (rule R23). -/
  | d
  /-- Break, bit 4 (rule R24). -/
  | b
  /-- Unused, bit 5 (rule R25). -/
  | u
  /-- Overflow, bit 6 (rule R26). -/
  | v
  /-- Negative, bit 7 (rule R27). -/
  | n
  deriving DecidableEq, Repr

/-- The bit number of a flag (rule R19). -/
def Flag.bit : Flag → Nat
  | .c => 0
  | .z => 1
  | .i => 2
  | .d => 3
  | .b => 4
  | .u => 5
  | .v => 6
  | .n => 7

/-- The mask of a flag (rule R19). -/
def Flag.mask : Flag → Byte
  | .c => 0x01#8
  | .z => 0x02#8
  | .i => 0x04#8
  | .d => 0x08#8
  | .b => 0x10#8
  | .u => 0x20#8
  | .v => 0x40#8
  | .n => 0x80#8

/-- The value of a flag in a status byte. -/
def flag (f : Flag) (p : Byte) : Bool := p.getLsbD f.bit

/-- A status byte with one flag written and the other seven kept. -/
def setFlag (f : Flag) (p : Byte) (on : Bool) : Byte := if on then p ||| f.mask else p &&& ~~~f.mask

/-- `SetZN(r)`: `P <- (P & 0x7D) | (r == 0 ? 0x02 : 0x00) | (r & 0x80)` (rule R97). -/
def setZN (p r : Byte) : Byte := (p &&& 0x7D#8) ||| (if r = 0x00#8 then 0x02#8 else 0x00#8) ||| (r &&& 0x80#8)

/-- The unbounded sum `A + M + P.C`, 0 to 511 (rule R165). -/
def carrySum (a m : Byte) (carry : Bool) : Nat := a.toNat + m.toNat + carry.toNat

/-- The signed-range test `((A ^ r) & (M ^ r) & 0x80) != 0` (rules R165 to R167). -/
def overflows (a m r : Byte) : Bool := (a ^^^ r) &&& (m ^^^ r) &&& 0x80#8 != 0x00#8

/-- P after ADC of `m`, and after SBC with `m` its operand's complement: C, V, then `SetZN` (rules R165, R166). The
Decimal flag is not read (decision D24, log entry 12). -/
def addFlags (p a m : Byte) : Byte :=
  let sum := carrySum a m (flag .c p)
  let r := BitVec.ofNat 8 sum
  setZN (setFlag .v (setFlag .c p (decide (255 < sum))) (overflows a m r)) r

/-- P after a shift: C is the bit shifted out, Z and N are those of the result (rules R175 to R178). -/
def shiftFlags (p : Byte) (out : Bool) (r : Byte) : Byte := setZN (setFlag .c p out) r

/-- P after BIT: Z from `A & M`, N and V from bits 7 and 6 of M (rule R179). -/
def bitFlags (p a m : Byte) : Byte :=
  setFlag .v (setFlag .n (setFlag .z p (a &&& m == 0x00#8)) (m.getLsbD 7)) (m.getLsbD 6)

end Sys2Proof.Machine
end

