-- ==== Sys2Proof/Machine/Arithmetic.lean ====
section
/-! DEFINITION. ADC and SBC (47_ext_arithmetic.md rules R165 to R167), binary whatever P.D holds (decision D24, log entry 12). -/

namespace Sys2Proof.Machine

/-- The action of every ADC (rule R165): `A <- (A + M + C) mod 256`, flags C, V, Z, N. -/
def addToA (m : Byte) (s : State) : State :=
  (s.setA (BitVec.ofNat 8 (carrySum s.a m (flag .c s.p)))).setP (addFlags s.p s.a m)

/-- The action of every SBC (rule R166): ADC of the one's complement of the operand. -/
def subFromA (m : Byte) (s : State) : State := addToA (m ^^^ 0xFF#8) s

/-- `ADC #$nn` (0x69), rule R165. -/
def execAdcImm (imm8 : Byte) (s : State) : Host.Outcome State Fault Refusal := .next (addToA imm8 s)

/-- `ADC $nn` (0x65), rule R165. -/
def execAdcZp (zp8 : Byte) (s : State) : Host.Outcome State Fault Refusal := .next (addToA (operandByte s (.zp zp8)) s)

/-- `ADC $nn,X` (0x75), rule R165. -/
def execAdcZpX (zp8 : Byte) (s : State) : Host.Outcome State Fault Refusal := .next (addToA (operandByte s (.zpX zp8)) s)

/-- `ADC $nnnn` (0x6D), rule R165. -/
def execAdcAbs (lo8 hi8 : Byte) (s : State) : Host.Outcome State Fault Refusal := .next (addToA (operandByte s (.abs lo8 hi8)) s)

/-- `ADC $nnnn,X` (0x7D), rule R165. -/
def execAdcAbsX (lo8 hi8 : Byte) (s : State) : Host.Outcome State Fault Refusal := .next (addToA (operandByte s (.absX lo8 hi8)) s)

/-- `ADC $nnnn,Y` (0x79), rule R165. -/
def execAdcAbsY (lo8 hi8 : Byte) (s : State) : Host.Outcome State Fault Refusal := .next (addToA (operandByte s (.absY lo8 hi8)) s)

/-- `ADC ($nn,X)` (0x61), rule R165. -/
def execAdcIndX (zp8 : Byte) (s : State) : Host.Outcome State Fault Refusal := .next (addToA (operandByte s (.indX zp8)) s)

/-- `ADC ($nn),Y` (0x71), rule R165. -/
def execAdcIndY (zp8 : Byte) (s : State) : Host.Outcome State Fault Refusal := .next (addToA (operandByte s (.indY zp8)) s)

/-- `SBC #$nn` (0xE9), rule R166. -/
def execSbcImm (imm8 : Byte) (s : State) : Host.Outcome State Fault Refusal := .next (subFromA imm8 s)

/-- `SBC $nn` (0xE5), rule R166. -/
def execSbcZp (zp8 : Byte) (s : State) : Host.Outcome State Fault Refusal := .next (subFromA (operandByte s (.zp zp8)) s)

/-- `SBC $nn,X` (0xF5), rule R166. -/
def execSbcZpX (zp8 : Byte) (s : State) : Host.Outcome State Fault Refusal := .next (subFromA (operandByte s (.zpX zp8)) s)

/-- `SBC $nnnn` (0xED), rule R166. -/
def execSbcAbs (lo8 hi8 : Byte) (s : State) : Host.Outcome State Fault Refusal := .next (subFromA (operandByte s (.abs lo8 hi8)) s)

/-- `SBC $nnnn,X` (0xFD), rule R166. -/
def execSbcAbsX (lo8 hi8 : Byte) (s : State) : Host.Outcome State Fault Refusal := .next (subFromA (operandByte s (.absX lo8 hi8)) s)

/-- `SBC $nnnn,Y` (0xF9), rule R166. -/
def execSbcAbsY (lo8 hi8 : Byte) (s : State) : Host.Outcome State Fault Refusal := .next (subFromA (operandByte s (.absY lo8 hi8)) s)

/-- `SBC ($nn,X)` (0xE1), rule R166. -/
def execSbcIndX (zp8 : Byte) (s : State) : Host.Outcome State Fault Refusal := .next (subFromA (operandByte s (.indX zp8)) s)

/-- `SBC ($nn),Y` (0xF1), rule R166. -/
def execSbcIndY (zp8 : Byte) (s : State) : Host.Outcome State Fault Refusal := .next (subFromA (operandByte s (.indY zp8)) s)

end Sys2Proof.Machine
end

