-- ==== Sys2Proof/Machine/Increment.lean ====
section
/-! DEFINITION. INX (43_increment.md rule R130). -/

namespace Sys2Proof.Machine

/-- `INX` (0xE8), rule R130. `X <- (X + 1) mod 256; SetZN(X)`; Carry and Overflow are not written. -/
def execInx (s : State) : Host.Outcome State Fault Refusal := 
  .next ((s.setX (s.x + 1#8)).setP (setZN s.p (s.x + 1#8)))

end Sys2Proof.Machine
end

