-- ==== Sys2Proof/Machine/Load.lean ====
section
/-! DEFINITION. LDA (41_load.md rule R120, 46_ext_load_store.md rule R155). -/

namespace Sys2Proof.Machine

/-- `A <- v; SetZN(A)`, the action of every LDA (rules R120, R155). -/
def loadA (v : Byte) (s : State) : State := (s.setA v).setP (setZN s.p v)

/-- `LDA #$nn` (0xA9), rule R120. -/
def execLdaImm (imm8 : Byte) (s : State) : Host.Outcome State Fault Refusal := .next (loadA imm8 s)

/-- `LDA $nn` (0xA5), rule R155. -/
def execLdaZp (zp8 : Byte) (s : State) : Host.Outcome State Fault Refusal := .next (loadA (operandByte s (.zp zp8)) s)

/-- `LDA $nn,X` (0xB5), rule R155. -/
def execLdaZpX (zp8 : Byte) (s : State) : Host.Outcome State Fault Refusal := .next (loadA (operandByte s (.zpX zp8)) s)

/-- `LDA $nnnn` (0xAD), rule R155. -/
def execLdaAbs (lo8 hi8 : Byte) (s : State) : Host.Outcome State Fault Refusal := .next (loadA (operandByte s (.abs lo8 hi8)) s)

/-- `LDA $nnnn,X` (0xBD), rule R155. -/
def execLdaAbsX (lo8 hi8 : Byte) (s : State) : Host.Outcome State Fault Refusal := .next (loadA (operandByte s (.absX lo8 hi8)) s)

/-- `LDA $nnnn,Y` (0xB9), rule R155. -/
def execLdaAbsY (lo8 hi8 : Byte) (s : State) : Host.Outcome State Fault Refusal := .next (loadA (operandByte s (.absY lo8 hi8)) s)

/-- `LDA ($nn,X)` (0xA1), rule R155. -/
def execLdaIndX (zp8 : Byte) (s : State) : Host.Outcome State Fault Refusal := .next (loadA (operandByte s (.indX zp8)) s)

/-- `LDA ($nn),Y` (0xB1), rule R155. -/
def execLdaIndY (zp8 : Byte) (s : State) : Host.Outcome State Fault Refusal := .next (loadA (operandByte s (.indY zp8)) s)

end Sys2Proof.Machine
end

