-- ==== Sys2Proof/Machine/Shift.lean ====
section
/-! DEFINITION. ASL, LSR and BIT (48_ext_shift_bit.md rules R175 to R179). A memory form reads its byte once and writes the
result once (45_ext_addressing.md rule R152, decision D25). -/

namespace Sys2Proof.Machine

/-- `ASL A` (rule R175): bit 7 goes to Carry, bit 0 becomes 0. -/
def shiftLeftA (s : State) : State := (s.setA (s.a <<< 1)).setP (shiftFlags s.p (s.a.getLsbD 7) (s.a <<< 1))

/-- `ASL ea` (rule R176), a read-modify-write. -/
def shiftLeftMem (m : MemOperand) (s : State) : State :=
  let v := operandByte s m
  (s.writeByte (effectiveAddress s m) (v <<< 1)).setP (shiftFlags s.p (v.getLsbD 7) (v <<< 1))

/-- `LSR A` (rule R177): bit 0 goes to Carry, bit 7 becomes 0. -/
def shiftRightA (s : State) : State := (s.setA (s.a >>> 1)).setP (shiftFlags s.p (s.a.getLsbD 0) (s.a >>> 1))

/-- `LSR ea` (rule R178), a read-modify-write. -/
def shiftRightMem (m : MemOperand) (s : State) : State :=
  let v := operandByte s m
  (s.writeByte (effectiveAddress s m) (v >>> 1)).setP (shiftFlags s.p (v.getLsbD 0) (v >>> 1))

/-- `BIT ea` (rule R179): A and the memory byte are kept. -/
def testBits (m : MemOperand) (s : State) : State := s.setP (bitFlags s.p s.a (operandByte s m))

/-- `ASL A` (0x0A), rule R175. -/
def execAslAcc (s : State) : Host.Outcome State Fault Refusal := .next (shiftLeftA s)

/-- `ASL $nn` (0x06), rule R176. -/
def execAslZp (zp8 : Byte) (s : State) : Host.Outcome State Fault Refusal := .next (shiftLeftMem (.zp zp8) s)

/-- `ASL $nn,X` (0x16), rule R176. -/
def execAslZpX (zp8 : Byte) (s : State) : Host.Outcome State Fault Refusal := .next (shiftLeftMem (.zpX zp8) s)

/-- `ASL $nnnn` (0x0E), rule R176. -/
def execAslAbs (lo8 hi8 : Byte) (s : State) : Host.Outcome State Fault Refusal := .next (shiftLeftMem (.abs lo8 hi8) s)

/-- `ASL $nnnn,X` (0x1E), rule R176. -/
def execAslAbsX (lo8 hi8 : Byte) (s : State) : Host.Outcome State Fault Refusal := .next (shiftLeftMem (.absX lo8 hi8) s)

/-- `LSR A` (0x4A), rule R177. -/
def execLsrAcc (s : State) : Host.Outcome State Fault Refusal := .next (shiftRightA s)

/-- `LSR $nn` (0x46), rule R178. -/
def execLsrZp (zp8 : Byte) (s : State) : Host.Outcome State Fault Refusal := .next (shiftRightMem (.zp zp8) s)

/-- `LSR $nn,X` (0x56), rule R178. -/
def execLsrZpX (zp8 : Byte) (s : State) : Host.Outcome State Fault Refusal := .next (shiftRightMem (.zpX zp8) s)

/-- `LSR $nnnn` (0x4E), rule R178. -/
def execLsrAbs (lo8 hi8 : Byte) (s : State) : Host.Outcome State Fault Refusal := .next (shiftRightMem (.abs lo8 hi8) s)

/-- `LSR $nnnn,X` (0x5E), rule R178. -/
def execLsrAbsX (lo8 hi8 : Byte) (s : State) : Host.Outcome State Fault Refusal := .next (shiftRightMem (.absX lo8 hi8) s)

/-- `BIT $nn` (0x24), rule R179. -/
def execBitZp (zp8 : Byte) (s : State) : Host.Outcome State Fault Refusal := .next (testBits (.zp zp8) s)

/-- `BIT $nnnn` (0x2C), rule R179. -/
def execBitAbs (lo8 hi8 : Byte) (s : State) : Host.Outcome State Fault Refusal := .next (testBits (.abs lo8 hi8) s)

end Sys2Proof.Machine
end

