-- ==== Sys2Proof/Machine/Store.lean ====
section
/-! DEFINITION. STA (46_ext_load_store.md rule R156): no flag changes and no data read is made. -/

namespace Sys2Proof.Machine

/-- `MemWrite(ea, 1, A)`, the action of every STA (rule R156). -/
def storeA (m : MemOperand) (s : State) : State := s.writeByte (effectiveAddress s m) s.a

/-- `STA $nn` (0x85), rule R156. -/
def execStaZp (zp8 : Byte) (s : State) : Host.Outcome State Fault Refusal := .next (storeA (.zp zp8) s)

/-- `STA $nn,X` (0x95), rule R156. -/
def execStaZpX (zp8 : Byte) (s : State) : Host.Outcome State Fault Refusal := .next (storeA (.zpX zp8) s)

/-- `STA $nnnn` (0x8D), rule R156. -/
def execStaAbs (lo8 hi8 : Byte) (s : State) : Host.Outcome State Fault Refusal := .next (storeA (.abs lo8 hi8) s)

/-- `STA $nnnn,X` (0x9D), rule R156. -/
def execStaAbsX (lo8 hi8 : Byte) (s : State) : Host.Outcome State Fault Refusal := .next (storeA (.absX lo8 hi8) s)

/-- `STA $nnnn,Y` (0x99), rule R156. -/
def execStaAbsY (lo8 hi8 : Byte) (s : State) : Host.Outcome State Fault Refusal := .next (storeA (.absY lo8 hi8) s)

/-- `STA ($nn,X)` (0x81), rule R156. -/
def execStaIndX (zp8 : Byte) (s : State) : Host.Outcome State Fault Refusal := .next (storeA (.indX zp8) s)

/-- `STA ($nn),Y` (0x91), rule R156. -/
def execStaIndY (zp8 : Byte) (s : State) : Host.Outcome State Fault Refusal := .next (storeA (.indY zp8) s)

end Sys2Proof.Machine
end

