-- ==== Sys2Proof/Machine/System.lean ====
section
/-! DEFINITION. BRK (44_system.md rule R135, 60_exceptions.md rule R227). -/

namespace Sys2Proof.Machine

/-- `BRK` (0x00), rule R135. `P.B <- 1; RUN <- Halted`: nothing is pushed,
no vector is read, and P.I is not set (decision D11, log entry 13). -/
def execBrk (s : State) : Host.Outcome State Fault Refusal := .next ((s.setP (s.p ||| Flag.b.mask)).setRun .halted)

end Sys2Proof.Machine
end

