-- ==== Sys2Proof/Machine/Transfer.lean ====
section
/-! DEFINITION. TAX (42_transfer.md rule R125). -/

namespace Sys2Proof.Machine

/-- `TAX` (0xAA), rule R125. `X <- A; SetZN(X)`. -/
def execTax (s : State) : Host.Outcome State Fault Refusal := .next ((s.setX s.a).setP (setZN s.p s.a))

end Sys2Proof.Machine
end

