-- ==== Sys2Proof/Machine/Dispatch.lean ====
section
/-! DEFINITION. The execute phase of a step (40_execution_cycle.md rule R95): one arm per instruction, each one call
of its meaning. When it runs, PC is already past the instruction (10_state.md rule R17). -/

namespace Sys2Proof.Machine

def exec (i : Instr) (s : State) : Host.Outcome State Fault Refusal :=
  match i with
  | .brk => Sys2Proof.Machine.execBrk s
  | .ldaImm imm8 => Sys2Proof.Machine.execLdaImm imm8 s
  | .tax => Sys2Proof.Machine.execTax s
  | .inx => Sys2Proof.Machine.execInx s
  | .ldaZp zp8 => Sys2Proof.Machine.execLdaZp zp8 s
  | .ldaZpX zp8 => Sys2Proof.Machine.execLdaZpX zp8 s
  | .ldaAbs lo8 hi8 => Sys2Proof.Machine.execLdaAbs lo8 hi8 s
  | .ldaAbsX lo8 hi8 => Sys2Proof.Machine.execLdaAbsX lo8 hi8 s
  | .ldaAbsY lo8 hi8 => Sys2Proof.Machine.execLdaAbsY lo8 hi8 s
  | .ldaIndX zp8 => Sys2Proof.Machine.execLdaIndX zp8 s
  | .ldaIndY zp8 => Sys2Proof.Machine.execLdaIndY zp8 s
  | .staZp zp8 => Sys2Proof.Machine.execStaZp zp8 s
  | .staZpX zp8 => Sys2Proof.Machine.execStaZpX zp8 s
  | .staAbs lo8 hi8 => Sys2Proof.Machine.execStaAbs lo8 hi8 s
  | .staAbsX lo8 hi8 => Sys2Proof.Machine.execStaAbsX lo8 hi8 s
  | .staAbsY lo8 hi8 => Sys2Proof.Machine.execStaAbsY lo8 hi8 s
  | .staIndX zp8 => Sys2Proof.Machine.execStaIndX zp8 s
  | .staIndY zp8 => Sys2Proof.Machine.execStaIndY zp8 s
  | .adcImm imm8 => Sys2Proof.Machine.execAdcImm imm8 s
  | .adcZp zp8 => Sys2Proof.Machine.execAdcZp zp8 s
  | .adcZpX zp8 => Sys2Proof.Machine.execAdcZpX zp8 s
  | .adcAbs lo8 hi8 => Sys2Proof.Machine.execAdcAbs lo8 hi8 s
  | .adcAbsX lo8 hi8 => Sys2Proof.Machine.execAdcAbsX lo8 hi8 s
  | .adcAbsY lo8 hi8 => Sys2Proof.Machine.execAdcAbsY lo8 hi8 s
  | .adcIndX zp8 => Sys2Proof.Machine.execAdcIndX zp8 s
  | .adcIndY zp8 => Sys2Proof.Machine.execAdcIndY zp8 s
  | .sbcImm imm8 => Sys2Proof.Machine.execSbcImm imm8 s
  | .sbcZp zp8 => Sys2Proof.Machine.execSbcZp zp8 s
  | .sbcZpX zp8 => Sys2Proof.Machine.execSbcZpX zp8 s
  | .sbcAbs lo8 hi8 => Sys2Proof.Machine.execSbcAbs lo8 hi8 s
  | .sbcAbsX lo8 hi8 => Sys2Proof.Machine.execSbcAbsX lo8 hi8 s
  | .sbcAbsY lo8 hi8 => Sys2Proof.Machine.execSbcAbsY lo8 hi8 s
  | .sbcIndX zp8 => Sys2Proof.Machine.execSbcIndX zp8 s
  | .sbcIndY zp8 => Sys2Proof.Machine.execSbcIndY zp8 s
  | .aslAcc => Sys2Proof.Machine.execAslAcc s
  | .aslZp zp8 => Sys2Proof.Machine.execAslZp zp8 s
  | .aslZpX zp8 => Sys2Proof.Machine.execAslZpX zp8 s
  | .aslAbs lo8 hi8 => Sys2Proof.Machine.execAslAbs lo8 hi8 s
  | .aslAbsX lo8 hi8 => Sys2Proof.Machine.execAslAbsX lo8 hi8 s
  | .lsrAcc => Sys2Proof.Machine.execLsrAcc s
  | .lsrZp zp8 => Sys2Proof.Machine.execLsrZp zp8 s
  | .lsrZpX zp8 => Sys2Proof.Machine.execLsrZpX zp8 s
  | .lsrAbs lo8 hi8 => Sys2Proof.Machine.execLsrAbs lo8 hi8 s
  | .lsrAbsX lo8 hi8 => Sys2Proof.Machine.execLsrAbsX lo8 hi8 s
  | .bitZp zp8 => Sys2Proof.Machine.execBitZp zp8 s
  | .bitAbs lo8 hi8 => Sys2Proof.Machine.execBitAbs lo8 hi8 s

end Sys2Proof.Machine
end

