-- ==== Sys2Proof/Machine/Engine.lean ====
section
/-! DEFINITION. The sequencer (40_execution_cycle.md rules R90, R91): one step of the machine, for either profile.
Step.lean gives it the fixed names. -/

namespace Sys2Proof.Machine

/-- The end of a step: the execute phase when the instruction was fetched, or the state a raised condition left. -/
def finish : Fetched Instr → Host.Outcome State Fault Refusal
  | .got i s => exec i s
  | .raised s => .next s

/-- One step (rule R91). In Halted and Faulted nothing changes (rule R104, decision D6, log entry 5); otherwise RUN
becomes Running (decision D16, log entry 15), the instruction is fetched and decoded, and its action runs. A raised
condition ends the step in state Faulted, which is a next state of the machine (rule R228, log entry 3). -/
def stepWith (o : Opset) (s : State) : Host.Outcome State Fault Refusal :=
  if s.terminal then .next s else finish (fetchInstr o (s.setRun .running))

end Sys2Proof.Machine
end

