-- ==== Sys2Proof/Machine/Step.lean ====
section
/-! DEFINITION. The fixed names the host reads: the step of the machine as it is built (log entry 1), and a table word
placed where the step fetches. Everything they call is defined before. -/

namespace Sys2Proof.Machine

/-- One step of the machine built with the profile `builtOpset` (40_execution_cycle.md rule R91). -/
def step (s : State) : Host.Outcome State Fault Refusal := stepWith builtOpset s

/-- The instruction with bits `w` stored at PC, where the next step fetches. It stands for the host's `load`, which puts
a program at ORIGIN and PC at it (log entry 14). -/
def State.withFetchWord (s : State) (nbits w : Nat) : State := s.placeAtPc (tableWordBytes nbits w)

end Sys2Proof.Machine
end

