-- ==== Sys2Proof/Machine/Commands.lean ====
section
/-! DEFINITION. The host's commands and read-outs (50_interfaces.md): construct, load, step and run with their results,
load_and_run, and the accessors. The host has no other move (rule R210). -/

namespace Sys2Proof.Machine

/-- What a command returns to the host (40_execution_cycle.md rules R100, R101; 50_interfaces.md rules R203, R208). -/
inductive CommandResult where
  /-- `load` has installed the program. -/
  | loaded
  /-- `step` or `run`: whether the engine is now halted. -/
  | halted (h : Bool)
  /-- The error condition that arose: the error record when the engine is Faulted, LoadOverflow from `load`. -/
  | error (e : Option Condition)
  deriving DecidableEq, Repr

/-- The result read from the state after the command: the error when Faulted, else whether RUN is Halted (rule R101). -/
def State.result (s : State) : CommandResult :=
  match s.run with
  | .reset => .halted false
  | .running => .halted false
  | .halted => .halted true
  | .faulted => .error s.err

/-- A command's state and its result, when the command has a next state. -/
def withResult : Host.Outcome State Fault Refusal → Host.Outcome (State × CommandResult) Fault Refusal
  | .next s => .next (s, s.result)
  | .fault f => .fault f
  | .refused r => .refused r

/-- `construct` (rule R202): takes nothing, cannot fail. -/
def construct : State := State.reset

/-- `load(program)` with what it returns (rules R203, R223): the program at ORIGIN, PC at ORIGIN and nothing else changed;
when it does not fit, LoadOverflow and no change at all, RUN still Reset, so that the host may load again (decision D9, log
entry 8). Refused outside state Reset (decision D6, log entry 7). -/
def load (program : List Byte) (s : State) : Host.Outcome (State × CommandResult) Fault Refusal :=
  if s.run = .reset then
    match s.loadBytes Config.origin program with
    | (t, none) => .next (t.setPc Config.origin, .loaded)
    | (t, some c) => .next (t, .error (some c))
  else .refused .loadOutsideReset

/-- `step()` with what it returns (rules R101, R206). -/
def stepCommand (o : Opset) (s : State) : Host.Outcome (State × CommandResult) Fault Refusal :=
  withResult (stepWith o s)

/-- Steps until RUN is Halted or Faulted, at most `n` of them. -/
def runFor (o : Opset) : Nat → State → Host.Outcome State Fault Refusal
  | 0, s => .next s
  | n + 1, s =>
    if s.terminal then .next s
    else
      match stepWith o s with
      | .next t => runFor o n t
      | .fault f => .fault f
      | .refused r => .refused r

/-- `run()` (rules R100, R205): steps until RUN is Halted or Faulted. 65536 steps are enough from any state (rule
R102, log entry 16). -/
def run (o : Opset) (s : State) : Host.Outcome State Fault Refusal := runFor o Config.addressSpace s

/-- `run()` with what it returns. -/
def runCommand (o : Opset) (s : State) : Host.Outcome (State × CommandResult) Fault Refusal :=
  withResult (run o s)

/-- `load_and_run(program)` (rule R204): load, and run if the load succeeded; else the load's error. -/
def loadAndRun (o : Opset) (program : List Byte) (s : State) : Host.Outcome (State × CommandResult) Fault Refusal :=
  match load program s with
  | .next (t, r) => if r = .loaded then runCommand o t else .next (t, r)
  | .fault f => .fault f
  | .refused r => .refused r

/-- What the read-only accessors return (rule R207): there is none for SP, RUN, ERR or memory. -/
structure Accessors where
  /-- The accumulator. -/
  a : Byte
  /-- X. -/
  x : Byte
  /-- Y. -/
  y : Byte
  /-- The whole packed status byte (10_state.md rule R29). -/
  p : Byte
  /-- The program counter. -/
  pc : Addr
  deriving DecidableEq, Repr

/-- The accessors' values in any engine state; reading them changes nothing. -/
def State.accessors (s : State) : Accessors := ⟨s.a, s.x, s.y, s.p, s.pc⟩

end Sys2Proof.Machine
end

