-- ==== Sys2Proof/Machine/Trace.lean ====
section
/-! DEFINITION. The memory accesses of a step in their order (20_memory.md rules R51, R63; 45_ext_addressing.md rule
R152; log entry 10). No address has a side effect (rule R53), so the step function need not record them: this list is
computed beside it, and the obligations AccessListWrites and StepReadsOnlyItsAccesses tie the two together. -/

namespace Sys2Proof.Machine

/-- One transaction of the memory port (50_interfaces.md rule R201). -/
inductive Access where
  /-- A byte read. -/
  | read (addr : Addr)
  /-- A byte write. -/
  | write (addr : Addr) (v : Byte)
  deriving DecidableEq, Repr

/-- The memory operand of an instruction, if its mode has an effective address. -/
def memOperand : Instr → Option MemOperand
  | .brk | .ldaImm _ | .tax | .inx | .adcImm _ | .sbcImm _ | .aslAcc | .lsrAcc => none
  | .ldaZp z | .staZp z | .adcZp z | .sbcZp z | .aslZp z | .lsrZp z | .bitZp z => some (.zp z)
  | .ldaZpX z | .staZpX z | .adcZpX z | .sbcZpX z | .aslZpX z | .lsrZpX z => some (.zpX z)
  | .ldaAbs l h | .staAbs l h | .adcAbs l h | .sbcAbs l h | .aslAbs l h | .lsrAbs l h | .bitAbs l h => some (.abs l h)
  | .ldaAbsX l h | .staAbsX l h | .adcAbsX l h | .sbcAbsX l h | .aslAbsX l h | .lsrAbsX l h => some (.absX l h)
  | .ldaAbsY l h | .staAbsY l h | .adcAbsY l h | .sbcAbsY l h => some (.absY l h)
  | .ldaIndX z | .staIndX z | .adcIndX z | .sbcIndX z => some (.indX z)
  | .ldaIndY z | .staIndY z | .adcIndY z | .sbcIndY z => some (.indY z)

/-- Whether an instruction with a memory operand reads the byte there: all do but STA (rule R152). -/
def readsData : Instr → Bool
  | .staZp _ | .staZpX _ | .staAbs _ _ | .staAbsX _ _ | .staAbsY _ _ | .staIndX _ | .staIndY _ => false
  | .brk | .ldaImm _ | .tax | .inx | .adcImm _ | .sbcImm _ | .aslAcc | .lsrAcc => false
  | .ldaZp _ | .ldaZpX _ | .ldaAbs _ _ | .ldaAbsX _ _ | .ldaAbsY _ _ | .ldaIndX _ | .ldaIndY _ => true
  | .adcZp _ | .adcZpX _ | .adcAbs _ _ | .adcAbsX _ _ | .adcAbsY _ _ | .adcIndX _ | .adcIndY _ => true
  | .sbcZp _ | .sbcZpX _ | .sbcAbs _ _ | .sbcAbsX _ _ | .sbcAbsY _ _ | .sbcIndX _ | .sbcIndY _ => true
  | .aslZp _ | .aslZpX _ | .aslAbs _ _ | .aslAbsX _ _ => true
  | .lsrZp _ | .lsrZpX _ | .lsrAbs _ _ | .lsrAbsX _ _ => true
  | .bitZp _ | .bitAbs _ _ => true

/-- The byte an instruction writes to its memory operand `m`, if it writes one: STA the accumulator, the memory forms of
ASL and LSR the shifted byte (rules R156, R176, R178). -/
def storedByte (s : State) (m : MemOperand) : Instr → Option Byte
  | .staZp _ | .staZpX _ | .staAbs _ _ | .staAbsX _ _ | .staAbsY _ _ | .staIndX _ | .staIndY _ => some s.a
  | .aslZp _ | .aslZpX _ | .aslAbs _ _ | .aslAbsX _ _ => some (operandByte s m <<< 1)
  | .lsrZp _ | .lsrZpX _ | .lsrAbs _ _ | .lsrAbsX _ _ => some (operandByte s m >>> 1)
  | .brk | .ldaImm _ | .tax | .inx | .adcImm _ | .sbcImm _ | .aslAcc | .lsrAcc => none
  | .ldaZp _ | .ldaZpX _ | .ldaAbs _ _ | .ldaAbsX _ _ | .ldaAbsY _ _ | .ldaIndX _ | .ldaIndY _ => none
  | .adcZp _ | .adcZpX _ | .adcAbs _ _ | .adcAbsX _ _ | .adcAbsY _ _ | .adcIndX _ | .adcIndY _ => none
  | .sbcZp _ | .sbcZpX _ | .sbcAbs _ _ | .sbcAbsX _ _ | .sbcAbsY _ _ | .sbcIndX _ | .sbcIndY _ => none
  | .bitZp _ | .bitAbs _ _ => none

/-- The two reads of a page-zero pointer, low byte first (rules R149, R150, R152). -/
def pointerReads (b : Byte) : List Access := [.read (pageZero b), .read (pageZero (b + 1#8))]

/-- The reads the resolver makes for a memory operand (rule R152 part 3). -/
def resolverReads (s : State) : MemOperand → List Access
  | .zp _ | .zpX _ | .abs _ _ | .absX _ _ | .absY _ _ => []
  | .indX z => pointerReads (z + s.x)
  | .indY z => pointerReads z

/-- The accesses after the instruction stream: pointer, data read, data write (rule R152 parts 3 to 5). -/
def execAccesses (i : Instr) (s : State) : List Access :=
  match memOperand i with
  | none => []
  | some m =>
    resolverReads s m ++ (if readsData i then [.read (effectiveAddress s m)] else []) ++
      (match storedByte s m i with
      | none => []
      | some v => [.write (effectiveAddress s m) v])

/-- How many operand bytes an entry's format has (30_encoding.md rule R71, 45_ext_addressing.md rule R141). -/
def operandCount : Entry → Nat
  | .imp _ => 0
  | .acc _ => 0
  | .imm _ => 1
  | .zpg _ => 1
  | .abs _ => 2

/-- `n` instruction-stream reads from `addr` up, ended by a failing advance at 0xFFFF (40_execution_cycle.md rule R92). -/
def streamReads : Nat → Addr → List Access
  | 0, _ => []
  | n + 1, addr => .read addr :: (if addr = 0xFFFF#16 then [] else streamReads n (addr + 1#16))

/-- The instruction-stream reads of a step: the opcode, then the operand bytes (rules R63, R152 parts 1 and 2). -/
def fetchAccesses (o : Opset) (s : State) : List Access :=
  .read s.pc ::
    (if s.pc = 0xFFFF#16 then []
    else
      match dispatch o (s.readByte s.pc) with
      | none => []
      | some e => streamReads (operandCount e) (s.pc + 1#16))

/-- The accesses after the instruction stream, none when a condition was raised. -/
def actionAccesses : Fetched Instr → List Access
  | .got i t => execAccesses i t
  | .raised _ => []

/-- Every memory access of one step, in order (rules R63, R152). -/
def stepAccesses (o : Opset) (s : State) : List Access :=
  if s.terminal then [] else fetchAccesses o s ++ actionAccesses (fetchInstr o (s.setRun .running))

end Sys2Proof.Machine
end

