-- ==== Sys2Proof/Safety.lean ====
section
/-! DEFINITION. The terms claims use: sequences of steps, how a run ends (70_reset_and_hazards.md rule R257), the states
the host can reach (50_interfaces.md rule R210), and the invariants of the machine (10_state.md). -/

namespace Sys2Proof.Machine

/-- The state after exactly `n` steps, `none` if one of them had no next state. -/
def stepsWith (o : Opset) : Nat → State → Option State
  | 0, s => some s
  | n + 1, s =>
    match stepWith o s with
    | .next t => stepsWith o n t
    | .fault _ => none
    | .refused _ => none

/-- The run has ended successfully: BRK was executed (rule R257). -/
def endedWell (s : State) : Prop := s.run = .halted

/-- The run has ended in an error condition (rules R227, R257). -/
def wentWrong (s : State) : Prop := s.run = .faulted

/-- The states a host can bring a machine of profile `o` to: construct it, then load and step (rules R202 to R206,
R210). `run` and `load_and_run` are sequences of these. -/
inductive Reachable (o : Opset) : State → Prop where
  /-- After `construct`. -/
  | constructed : Reachable o construct
  /-- After a `load`, successful or not. -/
  | loaded (program : List Byte) (s t : State) (r : CommandResult) (hs : Reachable o s)
      (h : load program s = .next (t, r)) : Reachable o t
  /-- After a `step`. -/
  | stepped (s t : State) (hs : Reachable o s) (h : stepWith o s = .next t) : Reachable o t

/-- What holds of the machine in every reachable state of either profile. -/
structure State.Inv (s : State) : Prop where
  /-- Memory is in its canonical form. -/
  memWf : Memory.wf s.mem
  /-- Y is 0x00 (rule R12). -/
  yZero : s.y = 0x00#8
  /-- SP is 0x00 (rule R13). -/
  spZero : s.sp = 0x00#8
  /-- P.I is 0 (rule R22). -/
  interruptClear : flag .i s.p = false
  /-- P.D is 0 (rule R23). -/
  decimalClear : flag .d s.p = false
  /-- P.U is 0 (rule R25). -/
  unusedClear : flag .u s.p = false
  /-- P.B is 1 exactly in Halted (rule R24). -/
  breakIffHalted : flag .b s.p = true ↔ s.run = .halted
  /-- ERR holds a condition exactly in Faulted (rules R33, R228). -/
  errIffFaulted : s.err.isSome = true ↔ s.run = .faulted
  /-- The recorded condition is one of the two step-time conditions, the overrun always at 0x10000 (rules R220, R222);
  LoadOverflow is never recorded (log entry 8). -/
  errKind : ∀ c, s.err = some c → (∃ b pc, c = .unimplementedOpcode b pc) ∨ c = .addressOverrun Config.addressSpace
  /-- Before the first step A, X and P are zero, and PC is 0x0000 or ORIGIN (rule R35). -/
  resetClean : s.run = .reset → s.a = 0x00#8 ∧ s.x = 0x00#8 ∧ s.p = 0x00#8 ∧ (s.pc = 0x0000#16 ∨ s.pc = Config.origin)

/-- What holds besides in every reachable state of the BASE machine (rules R20, R26, R98). -/
structure State.BaseInv (s : State) : Prop extends State.Inv s where
  /-- P.C is 0 (rule R20). -/
  carryClear : flag .c s.p = false
  /-- P.V is 0 (rule R26). -/
  overflowClear : flag .v s.p = false
  /-- Z and N are not both 1 (rule R98). -/
  notZeroAndNegative : ¬ (flag .z s.p = true ∧ flag .n s.p = true)

end Sys2Proof.Machine
end

