-- ==== Sys2Proof/Certificates/Slice0/Obligations.lean ====
section
/-! DEFINITION. The statements for the provers. Each docstring names the rule of spec/ it formalises, or says which clause
is a choice and in which log entry (notes/assumptions/) it stands. Statements quantify over both profiles wherever the
profile matters. -/

namespace Sys2Proof.Claims

open Sys2Proof.Machine

/-- The registers no instruction writes, and PC, RUN and ERR, are kept. -/
def keepsControl (s t : State) : Prop := t.y = s.y ∧ t.sp = s.sp ∧ t.pc = s.pc ∧ t.run = s.run ∧ t.err = s.err

/-- Every byte of memory reads as before. -/
def keepsMemory (s t : State) : Prop := ∀ addr, t.readByte addr = s.readByte addr

/-- Every byte of memory but the one at `ea` reads as before. -/
def keepsMemoryBut (ea : Addr) (s t : State) : Prop := ∀ addr, addr ≠ ea → t.readByte addr = s.readByte addr

/-- Every flag outside `fs` is kept. -/
def keepsFlagsBut (fs : List Flag) (s t : State) : Prop := ∀ f, f ∉ fs → flag f t.p = flag f s.p

/-- Z and N are those of the result byte `r`, the other flags outside `fs` are kept. -/
def flagsOf (r : Byte) (fs : List Flag) (s t : State) : Prop :=
  flag .z t.p = decide (r.toNat = 0) ∧ flag .n t.p = decide (0x80 ≤ r.toNat) ∧ keepsFlagsBut (.z :: .n :: fs) s t

/-- `A` holds `v` with its flags, and everything else is kept: the effect of a load. -/
def loadsA (v : Byte) (s t : State) : Prop :=
  t.a = v ∧ flagsOf v [] s t ∧ t.x = s.x ∧ keepsControl s t ∧ keepsMemory s t

/-- Memory at `ea` holds A and everything else is kept: the effect of a store. -/
def storesA (ea : Addr) (s t : State) : Prop :=
  t.readByte ea = s.a ∧ keepsMemoryBut ea s t ∧ t.p = s.p ∧ t.a = s.a ∧ t.x = s.x ∧ keepsControl s t

/-- The carry flag as a number. -/
def carryIn (s : State) : Nat := (flag .c s.p).toNat

/-- The effect of ADC with operand byte `m`: the sum modulo 256, C its ninth bit, V the signed-range test. -/
def addsToA (m : Byte) (s t : State) : Prop :=
  t.a.toNat = (s.a.toNat + m.toNat + carryIn s) % 256 ∧
  flag .c t.p = decide (255 < s.a.toNat + m.toNat + carryIn s) ∧
  (flag .v t.p = true ↔ s.a.toInt + m.toInt + carryIn s < -128 ∨ 127 < s.a.toInt + m.toInt + carryIn s) ∧
  flagsOf t.a [.c, .v] s t ∧ t.x = s.x ∧ keepsControl s t ∧ keepsMemory s t

/-- The effect of SBC with operand byte `m`: `A - M - (1 - C)` modulo 256, C when no borrow occurred, V the signed-range
test. -/
def subtractsFromA (m : Byte) (s t : State) : Prop :=
  (t.a.toNat : Int) = ((s.a.toNat : Int) - m.toNat - (1 - carryIn s)) % 256 ∧
  flag .c t.p = decide (m.toNat + (1 - carryIn s) ≤ s.a.toNat) ∧
  (flag .v t.p = true ↔
    s.a.toInt - m.toInt - (1 - carryIn s : Int) < -128 ∨ 127 < s.a.toInt - m.toInt - (1 - carryIn s : Int)) ∧
  flagsOf t.a [.c, .v] s t ∧ t.x = s.x ∧ keepsControl s t ∧ keepsMemory s t

/-- The byte `r` is `v` shifted left by one, with C the bit shifted out. -/
def shiftedLeft (v r : Byte) (s t : State) : Prop :=
  r.toNat = v.toNat * 2 % 256 ∧ flag .c t.p = decide (0x80 ≤ v.toNat) ∧ flagsOf r [.c] s t

/-- The byte `r` is `v` shifted right by one, with C the bit shifted out; N becomes 0. -/
def shiftedRight (v r : Byte) (s t : State) : Prop :=
  r.toNat = v.toNat / 2 ∧ flag .c t.p = decide (v.toNat % 2 = 1) ∧ flag .n t.p = false ∧ flagsOf r [.c] s t

/-- A shift of the accumulator keeps everything but A and its flags. -/
def keepsAllButA (s t : State) : Prop := t.x = s.x ∧ keepsControl s t ∧ keepsMemory s t

/-- A read-modify-write of the byte at `ea` keeps everything but that byte and its flags. -/
def keepsAllButByte (ea : Addr) (s t : State) : Prop :=
  t.a = s.a ∧ t.x = s.x ∧ keepsControl s t ∧ keepsMemoryBut ea s t

/-- The effect of BIT with memory byte `m`. -/
def testsBits (m : Byte) (s t : State) : Prop :=
  flag .z t.p = decide ((s.a &&& m).toNat = 0) ∧ flag .n t.p = m.getLsbD 7 ∧ flag .v t.p = m.getLsbD 6 ∧
  keepsFlagsBut [.z, .n, .v] s t ∧ t.a = s.a ∧ t.x = s.x ∧ keepsControl s t ∧ keepsMemory s t

/-- `i` ends in the one next state, in which `P` holds. -/
def completes (i : Instr) (s : State) (P : State → Prop) : Prop := ∃ t, exec i s = .next t ∧ P t

/-- One step of the machine of profile `o` ends in the one next state, in which `P` holds. -/
def stepsTo (o : Opset) (s : State) (P : State → Prop) : Prop := ∃ t, stepWith o s = .next t ∧ P t

/-- The state a step-time condition `c` leaves, with PC at `pc`: Faulted, ERR holds it, nothing else changed (rules
R228, R229). -/
def faultedWith (c : Condition) (pc : Addr) (s t : State) : Prop :=
  t.run = .faulted ∧ t.err = some c ∧ t.pc = pc ∧ t.a = s.a ∧ t.x = s.x ∧ t.y = s.y ∧ t.sp = s.sp ∧ t.p = s.p ∧
  keepsMemory s t

/-- The state AddressOverrun leaves. -/
def overran (s t : State) : Prop := faultedWith (.addressOverrun 0x10000) 0xFFFF#16 s t

/-- A state in which a step runs an instruction: Reset or Running. -/
def live (s : State) : Prop := s.run = .reset ∨ s.run = .running

/-- The three bytes from PC up. Where PC is too high for three, the last ones stand at the bottom of memory: a statement
that uses them bounds the instruction's length. -/
def bytesAtPc (s : State) : List Byte :=
  [s.readByte s.pc, s.readByte (s.pc + 1#16), s.readByte (s.pc + 2#16)]

/-- Memory holds the bytes `bs` from `addr` up. -/
def holdsBytes (s : State) (addr : Addr) (bs : List Byte) : Prop :=
  ∀ (k : Nat) (b : Byte), bs[k]? = some b → s.readByte (addr + BitVec.ofNat 16 k) = b

/-- The four opcode bytes of the BASE machine (rule R74). -/
def baseOpcodes : List Byte := [0x00#8, 0xA9#8, 0xAA#8, 0xE8#8]

/-- The 42 opcode bytes the EXT profile adds, row by row of rule R140's table. -/
def extOpcodes : List Byte :=
  [0xA5#8, 0xB5#8, 0xAD#8, 0xBD#8, 0xB9#8, 0xA1#8, 0xB1#8] ++
  [0x85#8, 0x95#8, 0x8D#8, 0x9D#8, 0x99#8, 0x81#8, 0x91#8] ++
  [0x69#8, 0x65#8, 0x75#8, 0x6D#8, 0x7D#8, 0x79#8, 0x61#8, 0x71#8] ++
  [0xE9#8, 0xE5#8, 0xF5#8, 0xED#8, 0xFD#8, 0xF9#8, 0xE1#8, 0xF1#8] ++
  [0x06#8, 0x16#8, 0x0E#8, 0x1E#8, 0x0A#8] ++ [0x46#8, 0x56#8, 0x4E#8, 0x5E#8, 0x4A#8] ++ [0x24#8, 0x2C#8]

/-- `bytes` is the encoding of `i` in the EXT profile: `i` is encoded as them, and whatever follows them, they decode to
`i`. -/
def isExtEncoding (i : Instr) (bytes : List Byte) : Prop :=
  encode i = bytes ∧ ∀ rest, decode .ext (bytes ++ rest) = .ok (i, rest)

/-- Some access of the list reads `addr`. -/
def reads (l : List Access) (addr : Addr) : Prop := .read addr ∈ l

end Sys2Proof.Claims

open Sys2Proof Sys2Proof.Machine Sys2Proof.Claims

/-! ## Encoding -/

/-- Decoding the bytes of a well-formed instruction gives it back with the bytes after it, at every operand value, in
either profile (rules R70 to R73; R141 for EXT, which the spec marks as general knowledge). -/
def Obligations.DecodeOfEncode : Prop :=
  ∀ (o : Opset) (i : Instr) (rest : List Byte), i.wellFormed o = true → decode o (encode i ++ rest) = .ok (i, rest)

/-- What decodes to an instruction is that instruction's encoding, and the profile has the instruction: no second byte
sequence means it (rules R72 to R75). -/
def Obligations.EncodeOfDecode : Prop :=
  ∀ (o : Opset) (bytes rest : List Byte) (i : Instr), decode o bytes = .ok (i, rest) →
    bytes = encode i ++ rest ∧ i.wellFormed o = true

/-- The worked encodings of rule R81, and its composite program decoded from the first byte. -/
def Obligations.BaseWorkedEncodings : Prop :=
  ∀ o : Opset,
    encode .brk = [0x00#8] ∧ (∀ v, encode (.ldaImm v) = [0xA9#8, v]) ∧ encode .tax = [0xAA#8] ∧ encode .inx = [0xE8#8] ∧
    decode o [0xA9#8, 0xC0#8, 0xAA#8, 0xE8#8, 0x00#8] = .ok (.ldaImm 0xC0#8, [0xAA#8, 0xE8#8, 0x00#8]) ∧
    decode o [0xAA#8, 0xE8#8, 0x00#8] = .ok (.tax, [0xE8#8, 0x00#8]) ∧
    decode o [0xE8#8, 0x00#8] = .ok (.inx, [0x00#8]) ∧ decode o [0x00#8] = .ok (.brk, [])

/-- The dispatch tables have exactly the opcode bytes of rules R74 and R140, every other byte has no entry (rule R75), and
an entry of BASE is the same in EXT. -/
def Obligations.DispatchHasExactlyTheTable : Prop :=
  (∀ b, (dispatch .base b).isSome = true ↔ b ∈ baseOpcodes) ∧
  (∀ b, (dispatch .ext b).isSome = true ↔ b ∈ baseOpcodes ∨ b ∈ extOpcodes) ∧
  (∀ b e, dispatch .base b = some e → dispatch .ext b = some e)

/-- Which opcode byte of the EXT profile is which instruction, row by row of rule R140's table, for all operand bytes: an
immediate `v`, a page-zero byte `z`, an address with its low byte `l` before its high byte `h` (rule R141). That these bytes
mean these instructions is the spec's general knowledge, log entry 11. -/
def Obligations.ExtEncodingsRowByRow : Prop :=
  ∀ v z l h : Byte,
    isExtEncoding (.ldaZp z) [0xA5#8, z] ∧ isExtEncoding (.ldaZpX z) [0xB5#8, z] ∧
    isExtEncoding (.ldaAbs l h) [0xAD#8, l, h] ∧ isExtEncoding (.ldaAbsX l h) [0xBD#8, l, h] ∧
    isExtEncoding (.ldaAbsY l h) [0xB9#8, l, h] ∧ isExtEncoding (.ldaIndX z) [0xA1#8, z] ∧
    isExtEncoding (.ldaIndY z) [0xB1#8, z] ∧
    isExtEncoding (.staZp z) [0x85#8, z] ∧ isExtEncoding (.staZpX z) [0x95#8, z] ∧
    isExtEncoding (.staAbs l h) [0x8D#8, l, h] ∧ isExtEncoding (.staAbsX l h) [0x9D#8, l, h] ∧
    isExtEncoding (.staAbsY l h) [0x99#8, l, h] ∧ isExtEncoding (.staIndX z) [0x81#8, z] ∧
    isExtEncoding (.staIndY z) [0x91#8, z] ∧
    isExtEncoding (.adcImm v) [0x69#8, v] ∧ isExtEncoding (.adcZp z) [0x65#8, z] ∧
    isExtEncoding (.adcZpX z) [0x75#8, z] ∧ isExtEncoding (.adcAbs l h) [0x6D#8, l, h] ∧
    isExtEncoding (.adcAbsX l h) [0x7D#8, l, h] ∧ isExtEncoding (.adcAbsY l h) [0x79#8, l, h] ∧
    isExtEncoding (.adcIndX z) [0x61#8, z] ∧ isExtEncoding (.adcIndY z) [0x71#8, z] ∧
    isExtEncoding (.sbcImm v) [0xE9#8, v] ∧ isExtEncoding (.sbcZp z) [0xE5#8, z] ∧
    isExtEncoding (.sbcZpX z) [0xF5#8, z] ∧ isExtEncoding (.sbcAbs l h) [0xED#8, l, h] ∧
    isExtEncoding (.sbcAbsX l h) [0xFD#8, l, h] ∧ isExtEncoding (.sbcAbsY l h) [0xF9#8, l, h] ∧
    isExtEncoding (.sbcIndX z) [0xE1#8, z] ∧ isExtEncoding (.sbcIndY z) [0xF1#8, z] ∧
    isExtEncoding .aslAcc [0x0A#8] ∧ isExtEncoding (.aslZp z) [0x06#8, z] ∧ isExtEncoding (.aslZpX z) [0x16#8, z] ∧
    isExtEncoding (.aslAbs l h) [0x0E#8, l, h] ∧ isExtEncoding (.aslAbsX l h) [0x1E#8, l, h] ∧
    isExtEncoding .lsrAcc [0x4A#8] ∧ isExtEncoding (.lsrZp z) [0x46#8, z] ∧ isExtEncoding (.lsrZpX z) [0x56#8, z] ∧
    isExtEncoding (.lsrAbs l h) [0x4E#8, l, h] ∧ isExtEncoding (.lsrAbsX l h) [0x5E#8, l, h] ∧
    isExtEncoding (.bitZp z) [0x24#8, z] ∧ isExtEncoding (.bitAbs l h) [0x2C#8, l, h]

/-! ## Construction -/

/-- After construction every register and flag is zero, RUN is Reset, ERR is empty and every byte of memory is its
MEM_INIT byte (rules R35, R202). That MEM_INIT is a free value is the model's choice, log entry 2. -/
def Obligations.ConstructLeavesZeros : Prop :=
  construct.a = 0x00#8 ∧ construct.x = 0x00#8 ∧ construct.y = 0x00#8 ∧ construct.sp = 0x00#8 ∧
  construct.pc = 0x0000#16 ∧ construct.p = 0x00#8 ∧ construct.run = .reset ∧ construct.err = none ∧
  ∀ addr, construct.readByte addr = Config.memInit addr

/-! ## The flag-update rule -/

/-- `SetZN(r)`: Z is 1 iff r is 0, N is bit 7 of r, the other six flags are kept; as a packed byte it is
`(P & 0x7D) | (r == 0 ? 0x02 : 0x00) | (r & 0x80)`; and LDA, TAX and INX each leave P as `SetZN` of their result byte
(rule R97). -/
def Obligations.SetZNWritesZeroAndNegative : Prop :=
  (∀ p r : Byte,
    flag .z (setZN p r) = decide (r.toNat = 0) ∧ flag .n (setZN p r) = decide (0x80 ≤ r.toNat) ∧
    (∀ f, f ≠ .z → f ≠ .n → flag f (setZN p r) = flag f p) ∧
    setZN p r = (p &&& 0x7D#8) ||| (if r = 0x00#8 then 0x02#8 else 0x00#8) ||| (r &&& 0x80#8)) ∧
  ∀ s : State,
    (∀ v, completes (.ldaImm v) s fun t => t.p = setZN s.p t.a) ∧ (completes .tax s fun t => t.p = setZN s.p t.x) ∧
    (completes .inx s fun t => t.p = setZN s.p t.x)

/-- `SetZN` applied twice is `SetZN` applied once, its Z and N do not depend on the old P, and it never sets both (rule
R98; its last sentence is the spec's own derivation). -/
def Obligations.SetZNForgetsOldFlags : Prop :=
  ∀ p q r : Byte,
    setZN (setZN p r) r = setZN p r ∧ flag .z (setZN p r) = flag .z (setZN q r) ∧
    flag .n (setZN p r) = flag .n (setZN q r) ∧ ¬ (flag .z (setZN p r) = true ∧ flag .n (setZN p r) = true)

/-- The flag invariant of the BASE machine: after LDA Z and N are those of the new A, after TAX and INX those of the new
X, and the other flags are kept; BRK keeps every flag but B (rule R28). -/
def Obligations.BaseFlagsAreOfTheResult : Prop :=
  ∀ s : State,
    (∀ v, completes (.ldaImm v) s fun t => flagsOf t.a [] s t) ∧
    (completes .tax s fun t => flagsOf t.x [] s t) ∧
    (completes .inx s fun t => flagsOf t.x [] s t) ∧
    (completes .brk s fun t => keepsFlagsBut [.b] s t)

/-! ## The execute phase, instruction by instruction

Each statement says that the instruction completes, what it writes, and that it keeps everything else (its frame). PC is
among what is kept: the fetch has moved it past the instruction before the action runs (rule R17). -/

/-- LDA in all eight forms loads A with the operand byte (rules R120, R155). -/
def Obligations.LdaLoadsTheOperand : Prop :=
  ∀ s : State,
    (∀ v, completes (.ldaImm v) s (loadsA v s)) ∧
    (∀ z, completes (.ldaZp z) s (loadsA (s.readByte (effectiveAddress s (.zp z))) s)) ∧
    (∀ z, completes (.ldaZpX z) s (loadsA (s.readByte (effectiveAddress s (.zpX z))) s)) ∧
    (∀ l h, completes (.ldaAbs l h) s (loadsA (s.readByte (effectiveAddress s (.abs l h))) s)) ∧
    (∀ l h, completes (.ldaAbsX l h) s (loadsA (s.readByte (effectiveAddress s (.absX l h))) s)) ∧
    (∀ l h, completes (.ldaAbsY l h) s (loadsA (s.readByte (effectiveAddress s (.absY l h))) s)) ∧
    (∀ z, completes (.ldaIndX z) s (loadsA (s.readByte (effectiveAddress s (.indX z))) s)) ∧
    (∀ z, completes (.ldaIndY z) s (loadsA (s.readByte (effectiveAddress s (.indY z))) s))

/-- STA in all seven forms stores A at the effective address and changes no flag and no other byte (rule R156). -/
def Obligations.StaStoresTheAccumulator : Prop :=
  ∀ s : State,
    (∀ z, completes (.staZp z) s (storesA (effectiveAddress s (.zp z)) s)) ∧
    (∀ z, completes (.staZpX z) s (storesA (effectiveAddress s (.zpX z)) s)) ∧
    (∀ l h, completes (.staAbs l h) s (storesA (effectiveAddress s (.abs l h)) s)) ∧
    (∀ l h, completes (.staAbsX l h) s (storesA (effectiveAddress s (.absX l h)) s)) ∧
    (∀ l h, completes (.staAbsY l h) s (storesA (effectiveAddress s (.absY l h)) s)) ∧
    (∀ z, completes (.staIndX z) s (storesA (effectiveAddress s (.indX z)) s)) ∧
    (∀ z, completes (.staIndY z) s (storesA (effectiveAddress s (.indY z)) s))

/-- TAX copies A into X (rule R125). -/
def Obligations.TaxCopiesTheAccumulator : Prop :=
  ∀ s : State, completes .tax s fun t =>
    t.x = s.a ∧ flagsOf s.a [] s t ∧ t.a = s.a ∧ keepsControl s t ∧ keepsMemory s t

/-- INX adds one to X modulo 256; C and V are among the flags kept, at the wrap too (rule R130). -/
def Obligations.InxAddsOneToX : Prop :=
  ∀ s : State, completes .inx s fun t =>
    t.x.toNat = (s.x.toNat + 1) % 256 ∧ flagsOf t.x [] s t ∧ t.a = s.a ∧ keepsControl s t ∧ keepsMemory s t

/-- BRK sets the Break flag, moves the engine to Halted, which is not Faulted, and changes nothing else: nothing is
pushed and PC goes nowhere (rule R227). -/
def Obligations.BrkHaltsAndSetsBreak : Prop :=
  ∀ s : State, completes .brk s fun t =>
    flag .b t.p = true ∧ keepsFlagsBut [.b] s t ∧ endedWell t ∧ ¬ wentWrong t ∧
    t.a = s.a ∧ t.x = s.x ∧ t.y = s.y ∧ t.sp = s.sp ∧ t.pc = s.pc ∧ t.err = s.err ∧ keepsMemory s t

/-- ADC in all eight forms adds the operand byte and the carry (rules R165, R167). That P.D is not read is the spec's
decision D24, log entry 12. -/
def Obligations.AdcAddsWithCarry : Prop :=
  ∀ s : State,
    (∀ v, completes (.adcImm v) s (addsToA v s)) ∧
    (∀ z, completes (.adcZp z) s (addsToA (s.readByte (effectiveAddress s (.zp z))) s)) ∧
    (∀ z, completes (.adcZpX z) s (addsToA (s.readByte (effectiveAddress s (.zpX z))) s)) ∧
    (∀ l h, completes (.adcAbs l h) s (addsToA (s.readByte (effectiveAddress s (.abs l h))) s)) ∧
    (∀ l h, completes (.adcAbsX l h) s (addsToA (s.readByte (effectiveAddress s (.absX l h))) s)) ∧
    (∀ l h, completes (.adcAbsY l h) s (addsToA (s.readByte (effectiveAddress s (.absY l h))) s)) ∧
    (∀ z, completes (.adcIndX z) s (addsToA (s.readByte (effectiveAddress s (.indX z))) s)) ∧
    (∀ z, completes (.adcIndY z) s (addsToA (s.readByte (effectiveAddress s (.indY z))) s))

/-- SBC in all eight forms subtracts the operand byte and the borrow (rules R166, R167). That P.D is not read is the
spec's decision D24, log entry 12. -/
def Obligations.SbcSubtractsWithBorrow : Prop :=
  ∀ s : State,
    (∀ v, completes (.sbcImm v) s (subtractsFromA v s)) ∧
    (∀ z, completes (.sbcZp z) s (subtractsFromA (s.readByte (effectiveAddress s (.zp z))) s)) ∧
    (∀ z, completes (.sbcZpX z) s (subtractsFromA (s.readByte (effectiveAddress s (.zpX z))) s)) ∧
    (∀ l h, completes (.sbcAbs l h) s (subtractsFromA (s.readByte (effectiveAddress s (.abs l h))) s)) ∧
    (∀ l h, completes (.sbcAbsX l h) s (subtractsFromA (s.readByte (effectiveAddress s (.absX l h))) s)) ∧
    (∀ l h, completes (.sbcAbsY l h) s (subtractsFromA (s.readByte (effectiveAddress s (.absY l h))) s)) ∧
    (∀ z, completes (.sbcIndX z) s (subtractsFromA (s.readByte (effectiveAddress s (.indX z))) s)) ∧
    (∀ z, completes (.sbcIndY z) s (subtractsFromA (s.readByte (effectiveAddress s (.indY z))) s))

/-- ASL shifts A left by one (rule R175), or the byte at the effective address, which it writes back (rule R176); V is
among the flags kept. -/
def Obligations.AslShiftsLeft : Prop :=
  ∀ s : State,
    (completes .aslAcc s fun t => shiftedLeft s.a t.a s t ∧ keepsAllButA s t) ∧
    (∀ z, completes (.aslZp z) s fun t =>
      shiftedLeft (s.readByte (effectiveAddress s (.zp z))) (t.readByte (effectiveAddress s (.zp z))) s t ∧
      keepsAllButByte (effectiveAddress s (.zp z)) s t) ∧
    (∀ z, completes (.aslZpX z) s fun t =>
      shiftedLeft (s.readByte (effectiveAddress s (.zpX z))) (t.readByte (effectiveAddress s (.zpX z))) s t ∧
      keepsAllButByte (effectiveAddress s (.zpX z)) s t) ∧
    (∀ l h, completes (.aslAbs l h) s fun t =>
      shiftedLeft (s.readByte (effectiveAddress s (.abs l h))) (t.readByte (effectiveAddress s (.abs l h))) s t ∧
      keepsAllButByte (effectiveAddress s (.abs l h)) s t) ∧
    (∀ l h, completes (.aslAbsX l h) s fun t =>
      shiftedLeft (s.readByte (effectiveAddress s (.absX l h))) (t.readByte (effectiveAddress s (.absX l h))) s t ∧
      keepsAllButByte (effectiveAddress s (.absX l h)) s t)

/-- LSR shifts A right by one (rule R177), or the byte at the effective address, which it writes back (rule R178); N
becomes 0 and V is among the flags kept. -/
def Obligations.LsrShiftsRight : Prop :=
  ∀ s : State,
    (completes .lsrAcc s fun t => shiftedRight s.a t.a s t ∧ keepsAllButA s t) ∧
    (∀ z, completes (.lsrZp z) s fun t =>
      shiftedRight (s.readByte (effectiveAddress s (.zp z))) (t.readByte (effectiveAddress s (.zp z))) s t ∧
      keepsAllButByte (effectiveAddress s (.zp z)) s t) ∧
    (∀ z, completes (.lsrZpX z) s fun t =>
      shiftedRight (s.readByte (effectiveAddress s (.zpX z))) (t.readByte (effectiveAddress s (.zpX z))) s t ∧
      keepsAllButByte (effectiveAddress s (.zpX z)) s t) ∧
    (∀ l h, completes (.lsrAbs l h) s fun t =>
      shiftedRight (s.readByte (effectiveAddress s (.abs l h))) (t.readByte (effectiveAddress s (.abs l h))) s t ∧
      keepsAllButByte (effectiveAddress s (.abs l h)) s t) ∧
    (∀ l h, completes (.lsrAbsX l h) s fun t =>
      shiftedRight (s.readByte (effectiveAddress s (.absX l h))) (t.readByte (effectiveAddress s (.absX l h))) s t ∧
      keepsAllButByte (effectiveAddress s (.absX l h)) s t)

/-- BIT in both forms writes Z from `A & M`, N and V from bits 7 and 6 of M, and nothing else (rule R179). -/
def Obligations.BitTestsMemory : Prop :=
  ∀ s : State,
    (∀ z, completes (.bitZp z) s (testsBits (s.readByte (effectiveAddress s (.zp z))) s)) ∧
    (∀ l h, completes (.bitAbs l h) s (testsBits (s.readByte (effectiveAddress s (.abs l h))) s))

/-- The effective address of every memory mode, in unbounded arithmetic: page-zero sums wrap modulo 256, the pointer's
high byte is read at the next page-zero address modulo 256, and 16-bit sums wrap modulo 65536 (rules R144 to R150; that
nothing faults is the spec's decision D23, log entry 11). -/
def Obligations.EffectiveAddressesWrap : Prop :=
  ∀ (s : State) (z l h : Byte),
    (effectiveAddress s (.zp z)).toNat = z.toNat ∧
    (effectiveAddress s (.zpX z)).toNat = (z.toNat + s.x.toNat) % 256 ∧
    (effectiveAddress s (.abs l h)).toNat = h.toNat * 256 + l.toNat ∧
    (effectiveAddress s (.absX l h)).toNat = (h.toNat * 256 + l.toNat + s.x.toNat) % 65536 ∧
    (effectiveAddress s (.absY l h)).toNat = (h.toNat * 256 + l.toNat + s.y.toNat) % 65536 ∧
    (∀ q : Nat, q = (z.toNat + s.x.toNat) % 256 →
      (effectiveAddress s (.indX z)).toNat =
        (s.readByte (BitVec.ofNat 16 ((q + 1) % 256))).toNat * 256 + (s.readByte (BitVec.ofNat 16 q)).toNat) ∧
    (effectiveAddress s (.indY z)).toNat =
      ((s.readByte (BitVec.ofNat 16 ((z.toNat + 1) % 256))).toNat * 256 + (s.readByte (BitVec.ofNat 16 z.toNat)).toNat +
        s.y.toNat) % 65536

/-! ## The whole machine, one instruction -/

/-- Only BRK halts: the action of an instruction leaves the engine Halted when the instruction is BRK, and otherwise
leaves it as it was, Running (rule R95). -/
def Obligations.OnlyBrkHalts : Prop :=
  ∀ (i : Instr) (s : State), s.run = .running →
    completes i s fun t => (i = .brk → t.run = .halted) ∧ (i ≠ .brk → t.run = .running)

/-- No instruction writes Y, SP, PC, ERR, P.I, P.D or P.U, and only BRK writes P.B or RUN (rules R12, R13, R17, R22 to
R25, R140). -/
def Obligations.ReservedStateIsNeverWritten : Prop :=
  ∀ (i : Instr) (s : State), completes i s fun t =>
    t.y = s.y ∧ t.sp = s.sp ∧ t.pc = s.pc ∧ t.err = s.err ∧ flag .i t.p = flag .i s.p ∧ flag .d t.p = flag .d s.p ∧
    flag .u t.p = flag .u s.p ∧ (i ≠ .brk → flag .b t.p = flag .b s.p ∧ t.run = s.run)

/-! ## The step -/

/-- A step runs the decoded instruction: when the bytes at PC decode to a well-formed instruction that ends below 0xFFFF,
the step is its action on the state with RUN Running and PC past the instruction (rules R17, R91); and the fixed name
`step` is the step of the profile the machine is built with. -/
def Obligations.StepRunsTheDecodedInstruction : Prop :=
  (∀ (o : Opset) (s : State) (i : Instr) (rest : List Byte), live s → decode o (bytesAtPc s) = .ok (i, rest) →
    i.wellFormed o = true → s.pc.toNat + i.length ≤ 0xFFFF →
    stepWith o s = exec i ((s.setRun .running).setPc (s.pc + BitVec.ofNat 16 i.length))) ∧
  ∀ s : State, step s = stepWith builtOpset s

/-- Every step ends in a next state: the machine never stops with a fault or a refusal, whatever memory holds (rules R91,
R104, R225, R228). That an error condition is a next state is the model's choice, log entry 3. -/
def Obligations.EveryStepHasANextState : Prop :=
  ∀ (o : Opset) (s : State), ∃ t, stepWith o s = .next t

/-- The whole step of LDA immediate in either profile (rule R120): A, Z and N from the byte after the opcode, PC past
both bytes; AddressOverrun with A and P unchanged when either byte stands at 0xFFFF (decision D4, log entry 4). -/
def Obligations.StepOfLdaImmediate : Prop :=
  ∀ (o : Opset) (s : State), live s → s.readByte s.pc = 0xA9#8 →
    (s.pc.toNat < 0xFFFE → stepsTo o s fun t =>
      t.a = s.readByte (s.pc + 1#16) ∧ t.pc.toNat = s.pc.toNat + 2 ∧ t.run = .running ∧ flagsOf t.a [] s t ∧
      t.x = s.x ∧ t.y = s.y ∧ t.sp = s.sp ∧ t.err = s.err ∧ keepsMemory s t) ∧
    (0xFFFE ≤ s.pc.toNat → stepsTo o s (overran s))

/-- The whole step of TAX in either profile (rule R125); the overrun at 0xFFFF is decision D4, log entry 4. -/
def Obligations.StepOfTax : Prop :=
  ∀ (o : Opset) (s : State), live s → s.readByte s.pc = 0xAA#8 →
    (s.pc.toNat < 0xFFFF → stepsTo o s fun t =>
      t.x = s.a ∧ t.pc.toNat = s.pc.toNat + 1 ∧ t.run = .running ∧ flagsOf t.x [] s t ∧
      t.a = s.a ∧ t.y = s.y ∧ t.sp = s.sp ∧ t.err = s.err ∧ keepsMemory s t) ∧
    (s.pc.toNat = 0xFFFF → stepsTo o s (overran s))

/-- The whole step of INX in either profile (rule R130); the overrun at 0xFFFF is decision D4, log entry 4. -/
def Obligations.StepOfInx : Prop :=
  ∀ (o : Opset) (s : State), live s → s.readByte s.pc = 0xE8#8 →
    (s.pc.toNat < 0xFFFF → stepsTo o s fun t =>
      t.x.toNat = (s.x.toNat + 1) % 256 ∧ t.pc.toNat = s.pc.toNat + 1 ∧ t.run = .running ∧ flagsOf t.x [] s t ∧
      t.a = s.a ∧ t.y = s.y ∧ t.sp = s.sp ∧ t.err = s.err ∧ keepsMemory s t) ∧
    (s.pc.toNat = 0xFFFF → stepsTo o s (overran s))

/-- The whole step of BRK in either profile (rule R135): Halted, `P | 0x10`, PC past the one byte, nothing else; at 0xFFFF
the engine ends in Faulted with B not set (decision D4, log entry 4). -/
def Obligations.StepOfBrk : Prop :=
  ∀ (o : Opset) (s : State), live s → s.readByte s.pc = 0x00#8 →
    (s.pc.toNat < 0xFFFF → stepsTo o s fun t =>
      t.p = s.p ||| 0x10#8 ∧ t.pc.toNat = s.pc.toNat + 1 ∧ t.run = .halted ∧
      t.a = s.a ∧ t.x = s.x ∧ t.y = s.y ∧ t.sp = s.sp ∧ t.err = s.err ∧ keepsMemory s t) ∧
    (s.pc.toNat = 0xFFFF → stepsTo o s (overran s))

/-- What a faulting step leaves, and in which order the conditions are met: AddressOverrun from the opcode fetch whatever
the byte is, then UnimplementedOpcode with the byte and its address, then AddressOverrun from an operand fetch (rules
R228 to R230; the spec's decisions D3, D4, D5, D14, log entries 3, 4, 9). -/
def Obligations.FaultingStepLeavesTheRest : Prop :=
  ∀ (o : Opset) (s : State), live s →
    (s.pc.toNat = 0xFFFF → stepsTo o s (overran s)) ∧
    (s.pc.toNat < 0xFFFF → dispatch o (s.readByte s.pc) = none →
      stepsTo o s (faultedWith (.unimplementedOpcode (s.readByte s.pc) s.pc) (s.pc + 1#16) s)) ∧
    (∀ e, s.pc.toNat < 0xFFFF → dispatch o (s.readByte s.pc) = some e → 0xFFFF < s.pc.toNat + 1 + operandCount e →
      stepsTo o s (overran s))

/-- In Halted and Faulted a step and a run change nothing, and both return the result again: halted, or the recorded
error (rule R104, decision D6, log entry 5). -/
def Obligations.TerminalStatesNeverChange : Prop :=
  ∀ (o : Opset) (s : State), s.run = .halted ∨ s.run = .faulted →
    stepWith o s = .next s ∧ run o s = .next s ∧
    (s.run = .halted → stepCommand o s = .next (s, .halted true) ∧ runCommand o s = .next (s, .halted true)) ∧
    (s.run = .faulted → stepCommand o s = .next (s, .error s.err) ∧ runCommand o s = .next (s, .error s.err))

/-- A step from Reset or Running ends in Halted exactly when the byte at PC is BRK's and PC is below 0xFFFF (rules R95,
R135, R257). That a BRK at 0xFFFF does not halt is the spec's choice, decision D4, log entry 4. -/
def Obligations.StepHaltsExactlyOnBrk : Prop :=
  ∀ (o : Opset) (s : State), live s → stepsTo o s fun t =>
    (endedWell t ↔ s.readByte s.pc = 0x00#8 ∧ s.pc.toNat < 0xFFFF)

/-- A step never moves PC back, and one that does not fault moves it forward by 1 or 2, under EXT by 3 at most (rule R102,
the spec's own derivation). -/
def Obligations.StepMovesPcForward : Prop :=
  ∀ (o : Opset) (s : State), live s → stepsTo o s fun t =>
    s.pc.toNat ≤ t.pc.toNat ∧
    (t.run ≠ .faulted → s.pc.toNat + 1 ≤ t.pc.toNat ∧ t.pc.toNat ≤ s.pc.toNat + 3 ∧
      (o = .base → t.pc.toNat ≤ s.pc.toNat + 2))

/-- A byte of the BASE table means the same in both profiles: the whole step agrees (rules R74, R140). -/
def Obligations.ProfilesAgreeOnBaseOpcodes : Prop :=
  ∀ s : State, s.readByte s.pc ∈ baseOpcodes → stepWith .base s = stepWith .ext s

/-- The BASE machine writes no memory during execution (rules R51, R60). -/
def Obligations.BaseStepKeepsMemory : Prop :=
  ∀ s : State, stepsTo .base s fun t => t.mem = s.mem

/-! ## Runs -/

/-- Every run ends: from any state, within `0x10000 - PC` steps, all but the last of which leave the engine neither Halted
nor Faulted; `run` gives that last state, and returns normally from Halted and with ERR from Faulted (rule R100; that every
run ends, and the bound, are rule R102, the spec's own derivation, which rests on decision D4, log entry 4; that `run` is
written with a bound is log entry 16). -/
def Obligations.EveryRunEnds : Prop :=
  ∀ (o : Opset) (s : State), ∃ (n : Nat) (t : State),
    n ≤ 0x10000 - s.pc.toNat ∧ stepsWith o n s = some t ∧ (endedWell t ∨ wentWrong t) ∧
    (∀ k, k < n → ∃ u, stepsWith o k s = some u ∧ live u) ∧ run o s = .next t ∧
    (endedWell t → runCommand o s = .next (t, .halted true)) ∧ (wentWrong t → runCommand o s = .next (t, .error t.err))

/-- A run is exactly the sequence of its steps: if `n` steps end in Halted or Faulted and no shorter number of them does,
`run` ends in that state, returning normally from Halted and the error record from Faulted; so given in Halted or Faulted
it returns at once and changes nothing (`n` is 0; rule R100). -/
def Obligations.RunIsTheSequenceOfItsSteps : Prop :=
  ∀ (o : Opset) (s : State) (n : Nat) (t : State), stepsWith o n s = some t → endedWell t ∨ wentWrong t →
    (∀ k, k < n → ∃ u, stepsWith o k s = some u ∧ live u) →
    run o s = .next t ∧ (endedWell t → runCommand o s = .next (t, .halted true)) ∧
    (wentWrong t → runCommand o s = .next (t, .error t.err))

/-- In the BASE machine, a sequence of `n` instructions other than BRK followed by a BRK below 0xFFFF halts after exactly
`n + 1` steps (rule R103, the spec's own derivation, stated of any live state with the bytes at PC). -/
def Obligations.BaseSequenceHaltsAtItsBrk : Prop :=
  ∀ (s : State) (is : List Instr), live s → (∀ i ∈ is, i.wellFormed .base = true ∧ i ≠ .brk) →
    s.pc.toNat + (is.flatMap encode).length < 0xFFFF → holdsBytes s s.pc (is.flatMap encode ++ encode .brk) →
    (∀ k, k ≤ is.length → ∃ u, stepsWith .base k s = some u ∧ live u) ∧
    ∃ t, stepsWith .base (is.length + 1) s = some t ∧ endedWell t

/-! ## Invariants -/

/-- The state after construction meets the invariant of both profiles (rules R35, R202). The invariants rest on log entries
2, 3, 8 and 15, as in StepKeepsTheInvariant. -/
def Obligations.ConstructMeetsTheInvariant : Prop := construct.Inv ∧ construct.BaseInv

/-- Every step keeps the invariant: canonical memory, Y, SP, P.I, P.D and P.U zero, B exactly in Halted, ERR exactly in
Faulted and always a step-time condition, the zeros of Reset (rules R12, R13, R22 to R25, R35, R228, partly the spec's own
derivations). Model's choices in it: the canonical memory (log entry 2), ERR and Faulted as state (decision D3, log entry 3),
that a condition in ERR is a step-time one although rule R33's list has LoadOverflow too (log entry 8), that the first step
leaves Reset and that bit 5, I, D, Y and SP stay zero (log entry 15). -/
def Obligations.StepKeepsTheInvariant : Prop :=
  (∀ s t : State, s.Inv → step s = .next t → t.Inv) ∧
  ∀ (o : Opset) (s t : State), s.Inv → stepWith o s = .next t → t.Inv

/-- Every step of the BASE machine keeps its stronger invariant: besides, C and V are zero (rules R20, R26) and Z and N
are never both 1 (the last clause of rule R98, the spec's own derivation). The invariant it extends rests on log entries 2,
3, 8 and 15, as in StepKeepsTheInvariant. -/
def Obligations.BaseStepKeepsItsInvariant : Prop :=
  ∀ s t : State, s.BaseInv → stepWith .base s = .next t → t.BaseInv

/-- The command `load`, successful or not, keeps both invariants (rules R203, R223, and the rules of the invariants'
fields). Model's choices in it: the canonical memory (log entry 2), what a load outside Reset and a load that does not fit
do (log entries 7 and 8). -/
def Obligations.LoadKeepsTheInvariant : Prop :=
  ∀ (program : List Byte) (s t : State) (r : CommandResult), load program s = .next (t, r) →
    (s.Inv → t.Inv) ∧ (s.BaseInv → t.BaseInv)

/-- Every state a host can reach, by any loads, successful or not, and steps, meets the invariant, and in the BASE machine
the stronger one: so B is 1 exactly in Halted and the reserved registers and flags are zero (rules R12, R13, R20, R22 to
R26, R98, partly the spec's own derivations). Model's choices in it: the canonical memory (log entry 2), ERR and Faulted as
state (log entry 3), ERR empty after a failing load, against the words of rule R33 (log entry 8, unsafe), loads in Reset only
(log entry 7), and that the host writes nothing but by load (decision D19, log entry 15, unsafe). -/
def Obligations.ReachableStatesMeetTheInvariant : Prop :=
  (∀ (o : Opset) (s : State), Reachable o s → s.Inv) ∧ ∀ s : State, Reachable .base s → s.BaseInv

/-! ## Memory -/

/-- `write_byte`: after it the address holds the value and every other byte is unchanged, at every address (rule R43). -/
def Obligations.WriteByteStoresOneByte : Prop :=
  ∀ (s : State) (addr : Addr) (v : Byte),
    (s.writeByte addr v).readByte addr = v ∧ keepsMemoryBut addr s (s.writeByte addr v)

/-- Memory is plain storage: after any writes an address reads as the value last written to it, else as it did before,
and from construction as its MEM_INIT byte (rule R53; that MEM_INIT is a free value is log entry 2). -/
def Obligations.MemoryIsPlainStorage : Prop :=
  ∀ (writes : List (Addr × Byte)) (s : State) (addr : Addr),
    (writes.foldl (fun u w => u.writeByte w.1 w.2) s).readByte addr =
      (((writes.filter fun w => w.1 == addr).getLast?).map Prod.snd).getD (s.readByte addr)

/-- Word accesses are little-endian and inverse to each other below 0xFFFF, at even and odd addresses, and refused at
0xFFFF (rules R44 to R46; the refusal is decision D12, log entry 6). -/
def Obligations.WordAccessIsLittleEndian : Prop :=
  ∀ (s : State) (addr v : Addr),
    (addr.toNat < 0xFFFF →
      (∃ w, s.readWord addr = .next w ∧
        w.toNat = (s.readByte (addr + 1#16)).toNat * 256 + (s.readByte addr).toNat) ∧
      ∃ t, s.writeWord addr v = .next t ∧ t.readWord addr = .next v ∧
        (t.readByte addr).toNat = v.toNat % 256 ∧ (t.readByte (addr + 1#16)).toNat = v.toNat / 256 ∧
        ∀ b, b ≠ addr → b ≠ addr + 1#16 → t.readByte b = s.readByte b) ∧
    (addr.toNat = 0xFFFF →
      s.readWord addr = .refused .wordAccessAtTop ∧ s.writeWord addr v = .refused .wordAccessAtTop)

/-- `load`: a program of at most 32768 bytes is copied to 0x8000 upward and PC set to 0x8000, nothing else changed; a
longer one returns LoadOverflow and leaves the whole state as it was, RUN Reset; outside state Reset it is refused (rules
R47, R203, R223; boundary and failure are the spec's decisions D6 and D9, log entries 7 and 8). -/
def Obligations.LoadInstallsTheProgram : Prop :=
  ∀ (program : List Byte) (s : State),
    (s.run = .reset → program.length ≤ 0x8000 → ∃ t, load program s = .next (t, .loaded) ∧ t.pc = 0x8000#16 ∧
      (∀ (k : Nat) (b : Byte), program[k]? = some b → t.readByte (BitVec.ofNat 16 (0x8000 + k)) = b) ∧
      (∀ addr : Addr, addr.toNat < 0x8000 ∨ 0x8000 + program.length ≤ addr.toNat → t.readByte addr = s.readByte addr) ∧
      t.a = s.a ∧ t.x = s.x ∧ t.y = s.y ∧ t.sp = s.sp ∧ t.p = s.p ∧ t.run = .reset ∧ t.err = s.err) ∧
    (s.run = .reset → 0x8000 < program.length →
      load program s = .next (s, .error (some (.loadOverflow 0x8000#16 program.length)))) ∧
    (s.run ≠ .reset → load program s = .refused .loadOutsideReset)

/-- A store into the instruction stream is seen by the next fetch of that address (rule R60, the spec's own derivation). -/
def Obligations.FetchSeesTheStoredByte : Prop :=
  ∀ (s : State) (l h : Byte), effectiveAddress s (.abs l h) ≠ 0xFFFF#16 →
    completes (.staAbs l h) s fun t =>
      fetchByte (t.setPc (effectiveAddress s (.abs l h))) =
        .got s.a (t.setPc (effectiveAddress s (.abs l h) + 1#16))

/-! ## Commands -/

/-- What `step` returns: true when RUN is Halted after it, false when RUN is Running, the error when a condition was
raised (rule R101). Beyond that rule: after a step RUN is never Reset (rule R90; decision D16, log entry 15), and a step
given in Faulted returns the recorded error again (rule R104; decision D6, log entry 5). -/
def Obligations.StepReturnsWhetherHalted : Prop :=
  ∀ (o : Opset) (s : State), ∃ t r, stepWith o s = .next t ∧ stepCommand o s = .next (t, r) ∧
    (t.run = .halted → r = .halted true) ∧ (t.run = .running → r = .halted false) ∧
    (t.run = .faulted → r = .error t.err) ∧ t.run ≠ .reset

/-- `load_and_run` is `load` and, if that succeeded, `run`, returning what `run` returns; if the load failed it returns
the load's LoadOverflow error and executes nothing (rules R204, R223); outside state Reset, where `load` is refused, it is
refused too. Model's choices in it: that a failing load leaves the whole state, ERR included, as it was (decision D9 against
the words of rule R33, log entry 8, unsafe), and the refusal (decision D6, log entry 7). -/
def Obligations.LoadAndRunIsTheComposition : Prop :=
  ∀ (o : Opset) (program : List Byte) (s : State),
    (∀ t, load program s = .next (t, .loaded) → loadAndRun o program s = runCommand o t) ∧
    (∀ t e, load program s = .next (t, .error e) → e = some (.loadOverflow 0x8000#16 program.length) ∧ t = s ∧
      loadAndRun o program s = .next (s, .error e)) ∧
    (s.run ≠ .reset → loadAndRun o program s = .refused .loadOutsideReset)

/-! ## The accesses of a step -/

/-- A step writes what its access list says and nothing else: every address holds the byte of its write in the list, or
its old byte if the list has no write to it (rules R51, R152). The list beside the step is the model's choice, log entry 10;
its order and number of accesses are the spec's decisions D15 and D25. -/
def Obligations.AccessListWrites : Prop :=
  ∀ (o : Opset) (s : State), stepsTo o s fun t => ∀ addr,
    (∃ v, .write addr v ∈ stepAccesses o s ∧ t.readByte addr = v) ∨
    ((∀ v, .write addr v ∉ stepAccesses o s) ∧ t.readByte addr = s.readByte addr)

/-- A step depends on no byte of memory but those its access list reads: two states that differ in memory alone and agree
on those bytes have the same accesses, and their steps end in states with the same registers, RUN and ERR (rules R63,
R152). The list beside the step is the model's choice, log entry 10; which accesses it has are the spec's decisions D15 and
D25. -/
def Obligations.StepReadsOnlyItsAccesses : Prop :=
  ∀ (o : Opset) (s : State) (m : Memory),
    (∀ addr, reads (stepAccesses o s) addr → (s.setMem m).readByte addr = s.readByte addr) →
    stepAccesses o (s.setMem m) = stepAccesses o s ∧
    ∃ t u, stepWith o s = .next t ∧ stepWith o (s.setMem m) = .next u ∧ u = t.setMem u.mem

/-- The accesses of a BASE step, in order: the opcode read; for LDA below 0xFFFF also the operand read; and nothing else
(rule R63, decision D15, log entry 10). -/
def Obligations.BaseAccessOrder : Prop :=
  ∀ s : State, live s →
    stepAccesses .base s =
      if s.readByte s.pc = 0xA9#8 ∧ s.pc.toNat < 0xFFFF then [.read s.pc, .read (s.pc + 1#16)] else [.read s.pc]
end

