-- ==== Sys2Proof/Laws/State.lean ====
section
/-! SUPPORT. One lemma per field per named update of State, and what a read of memory sees of each update. -/

namespace Sys2Proof.Machine.State

@[simp] theorem setA_a (s : State) (v : Byte) : (s.setA v).a = v := rfl
@[simp] theorem setA_x (s : State) (v : Byte) : (s.setA v).x = s.x := rfl
@[simp] theorem setA_y (s : State) (v : Byte) : (s.setA v).y = s.y := rfl
@[simp] theorem setA_sp (s : State) (v : Byte) : (s.setA v).sp = s.sp := rfl
@[simp] theorem setA_pc (s : State) (v : Byte) : (s.setA v).pc = s.pc := rfl
@[simp] theorem setA_p (s : State) (v : Byte) : (s.setA v).p = s.p := rfl
@[simp] theorem setA_mem (s : State) (v : Byte) : (s.setA v).mem = s.mem := rfl
@[simp] theorem setA_run (s : State) (v : Byte) : (s.setA v).run = s.run := rfl
@[simp] theorem setA_err (s : State) (v : Byte) : (s.setA v).err = s.err := rfl

@[simp] theorem setX_a (s : State) (v : Byte) : (s.setX v).a = s.a := rfl
@[simp] theorem setX_x (s : State) (v : Byte) : (s.setX v).x = v := rfl
@[simp] theorem setX_y (s : State) (v : Byte) : (s.setX v).y = s.y := rfl
@[simp] theorem setX_sp (s : State) (v : Byte) : (s.setX v).sp = s.sp := rfl
@[simp] theorem setX_pc (s : State) (v : Byte) : (s.setX v).pc = s.pc := rfl
@[simp] theorem setX_p (s : State) (v : Byte) : (s.setX v).p = s.p := rfl
@[simp] theorem setX_mem (s : State) (v : Byte) : (s.setX v).mem = s.mem := rfl
@[simp] theorem setX_run (s : State) (v : Byte) : (s.setX v).run = s.run := rfl
@[simp] theorem setX_err (s : State) (v : Byte) : (s.setX v).err = s.err := rfl

@[simp] theorem setPc_a (s : State) (v : Addr) : (s.setPc v).a = s.a := rfl
@[simp] theorem setPc_x (s : State) (v : Addr) : (s.setPc v).x = s.x := rfl
@[simp] theorem setPc_y (s : State) (v : Addr) : (s.setPc v).y = s.y := rfl
@[simp] theorem setPc_sp (s : State) (v : Addr) : (s.setPc v).sp = s.sp := rfl
@[simp] theorem setPc_pc (s : State) (v : Addr) : (s.setPc v).pc = v := rfl
@[simp] theorem setPc_p (s : State) (v : Addr) : (s.setPc v).p = s.p := rfl
@[simp] theorem setPc_mem (s : State) (v : Addr) : (s.setPc v).mem = s.mem := rfl
@[simp] theorem setPc_run (s : State) (v : Addr) : (s.setPc v).run = s.run := rfl
@[simp] theorem setPc_err (s : State) (v : Addr) : (s.setPc v).err = s.err := rfl

@[simp] theorem setP_a (s : State) (v : Byte) : (s.setP v).a = s.a := rfl
@[simp] theorem setP_x (s : State) (v : Byte) : (s.setP v).x = s.x := rfl
@[simp] theorem setP_y (s : State) (v : Byte) : (s.setP v).y = s.y := rfl
@[simp] theorem setP_sp (s : State) (v : Byte) : (s.setP v).sp = s.sp := rfl
@[simp] theorem setP_pc (s : State) (v : Byte) : (s.setP v).pc = s.pc := rfl
@[simp] theorem setP_p (s : State) (v : Byte) : (s.setP v).p = v := rfl
@[simp] theorem setP_mem (s : State) (v : Byte) : (s.setP v).mem = s.mem := rfl
@[simp] theorem setP_run (s : State) (v : Byte) : (s.setP v).run = s.run := rfl
@[simp] theorem setP_err (s : State) (v : Byte) : (s.setP v).err = s.err := rfl

@[simp] theorem setMem_a (s : State) (v : Memory) : (s.setMem v).a = s.a := rfl
@[simp] theorem setMem_x (s : State) (v : Memory) : (s.setMem v).x = s.x := rfl
@[simp] theorem setMem_y (s : State) (v : Memory) : (s.setMem v).y = s.y := rfl
@[simp] theorem setMem_sp (s : State) (v : Memory) : (s.setMem v).sp = s.sp := rfl
@[simp] theorem setMem_pc (s : State) (v : Memory) : (s.setMem v).pc = s.pc := rfl
@[simp] theorem setMem_p (s : State) (v : Memory) : (s.setMem v).p = s.p := rfl
@[simp] theorem setMem_mem (s : State) (v : Memory) : (s.setMem v).mem = v := rfl
@[simp] theorem setMem_run (s : State) (v : Memory) : (s.setMem v).run = s.run := rfl
@[simp] theorem setMem_err (s : State) (v : Memory) : (s.setMem v).err = s.err := rfl

@[simp] theorem setRun_a (s : State) (v : RunState) : (s.setRun v).a = s.a := rfl
@[simp] theorem setRun_x (s : State) (v : RunState) : (s.setRun v).x = s.x := rfl
@[simp] theorem setRun_y (s : State) (v : RunState) : (s.setRun v).y = s.y := rfl
@[simp] theorem setRun_sp (s : State) (v : RunState) : (s.setRun v).sp = s.sp := rfl
@[simp] theorem setRun_pc (s : State) (v : RunState) : (s.setRun v).pc = s.pc := rfl
@[simp] theorem setRun_p (s : State) (v : RunState) : (s.setRun v).p = s.p := rfl
@[simp] theorem setRun_mem (s : State) (v : RunState) : (s.setRun v).mem = s.mem := rfl
@[simp] theorem setRun_run (s : State) (v : RunState) : (s.setRun v).run = v := rfl
@[simp] theorem setRun_err (s : State) (v : RunState) : (s.setRun v).err = s.err := rfl

@[simp] theorem setErr_a (s : State) (v : Option Condition) : (s.setErr v).a = s.a := rfl
@[simp] theorem setErr_x (s : State) (v : Option Condition) : (s.setErr v).x = s.x := rfl
@[simp] theorem setErr_y (s : State) (v : Option Condition) : (s.setErr v).y = s.y := rfl
@[simp] theorem setErr_sp (s : State) (v : Option Condition) : (s.setErr v).sp = s.sp := rfl
@[simp] theorem setErr_pc (s : State) (v : Option Condition) : (s.setErr v).pc = s.pc := rfl
@[simp] theorem setErr_p (s : State) (v : Option Condition) : (s.setErr v).p = s.p := rfl
@[simp] theorem setErr_mem (s : State) (v : Option Condition) : (s.setErr v).mem = s.mem := rfl
@[simp] theorem setErr_run (s : State) (v : Option Condition) : (s.setErr v).run = s.run := rfl
@[simp] theorem setErr_err (s : State) (v : Option Condition) : (s.setErr v).err = v := rfl

/-! ## Reads of memory see memory alone -/

@[simp] theorem readByte_setA (s : State) (v : Byte) (addr : Addr) : (s.setA v).readByte addr = s.readByte addr := rfl
@[simp] theorem readByte_setX (s : State) (v : Byte) (addr : Addr) : (s.setX v).readByte addr = s.readByte addr := rfl
@[simp] theorem readByte_setPc (s : State) (v : Addr) (addr : Addr) : (s.setPc v).readByte addr = s.readByte addr := rfl
@[simp] theorem readByte_setP (s : State) (v : Byte) (addr : Addr) : (s.setP v).readByte addr = s.readByte addr := rfl
@[simp] theorem readByte_setRun (s : State) (v : RunState) (addr : Addr) : (s.setRun v).readByte addr = s.readByte addr := rfl
@[simp] theorem readByte_setErr (s : State) (v : Option Condition) (addr : Addr) : (s.setErr v).readByte addr = s.readByte addr := rfl

/-- A read depends on memory alone. -/
theorem readByte_congr (s t : State) (h : t.mem = s.mem) (addr : Addr) : t.readByte addr = s.readByte addr := by
  simp [readByte, h]

/-! ## `raise` and `writeByte` by field -/

@[simp] theorem raise_a (s : State) (c : Condition) : (s.raise c).a = s.a := rfl
@[simp] theorem raise_x (s : State) (c : Condition) : (s.raise c).x = s.x := rfl
@[simp] theorem raise_y (s : State) (c : Condition) : (s.raise c).y = s.y := rfl
@[simp] theorem raise_sp (s : State) (c : Condition) : (s.raise c).sp = s.sp := rfl
@[simp] theorem raise_pc (s : State) (c : Condition) : (s.raise c).pc = s.pc := rfl
@[simp] theorem raise_p (s : State) (c : Condition) : (s.raise c).p = s.p := rfl
@[simp] theorem raise_mem (s : State) (c : Condition) : (s.raise c).mem = s.mem := rfl
@[simp] theorem raise_run (s : State) (c : Condition) : (s.raise c).run = .faulted := rfl
@[simp] theorem raise_err (s : State) (c : Condition) : (s.raise c).err = some c := rfl
@[simp] theorem readByte_raise (s : State) (c : Condition) (addr : Addr) : (s.raise c).readByte addr = s.readByte addr := rfl

@[simp] theorem writeByte_a (s : State) (addr : Addr) (v : Byte) : (s.writeByte addr v).a = s.a := rfl
@[simp] theorem writeByte_x (s : State) (addr : Addr) (v : Byte) : (s.writeByte addr v).x = s.x := rfl
@[simp] theorem writeByte_y (s : State) (addr : Addr) (v : Byte) : (s.writeByte addr v).y = s.y := rfl
@[simp] theorem writeByte_sp (s : State) (addr : Addr) (v : Byte) : (s.writeByte addr v).sp = s.sp := rfl
@[simp] theorem writeByte_pc (s : State) (addr : Addr) (v : Byte) : (s.writeByte addr v).pc = s.pc := rfl
@[simp] theorem writeByte_p (s : State) (addr : Addr) (v : Byte) : (s.writeByte addr v).p = s.p := rfl
theorem writeByte_mem (s : State) (addr : Addr) (v : Byte) : (s.writeByte addr v).mem = Memory.write s.mem addr.toNat v := rfl
@[simp] theorem writeByte_run (s : State) (addr : Addr) (v : Byte) : (s.writeByte addr v).run = s.run := rfl
@[simp] theorem writeByte_err (s : State) (addr : Addr) (v : Byte) : (s.writeByte addr v).err = s.err := rfl

end Sys2Proof.Machine.State
end

