-- ==== Sys2Proof/Laws/Memory.lean ====
section
/-! SUPPORT. Memory as a list of cells: a read after a write, that every operation keeps the canonical form, and that
canonical memories with the same listed values are the same list. -/

namespace Sys2Proof.Machine.Memory

theorem find_write_self (m : Memory) (n : Nat) (v : Byte) : find (write m n v) n = some v := by
  induction m with
  | nil => simp [write, find]
  | cons c m ih =>
    obtain ⟨k, w⟩ := c
    simp only [write]
    split
    · simp [find]
    · split
      · simp [find]
      · simp [find, *]

theorem find_write_ne (m : Memory) (n a : Nat) (v : Byte) (h : a ≠ n) : find (write m n v) a = find m a := by
  induction m with
  | nil => simp [write, find, h]
  | cons c m ih =>
    obtain ⟨k, w⟩ := c
    simp only [write]
    split
    · simp [find, h]
    · split
      · next hk => subst hk; simp [find, h]
      · simp [find, ih]

/-- A written cell is the new one or one that stood in the list. -/
theorem mem_write {m : Memory} {n : Nat} {v : Byte} {c : Host.Cell} (h : c ∈ write m n v) : c = (n, v) ∨ c ∈ m := by
  induction m with
  | nil => simpa [write] using h
  | cons d m ih =>
    obtain ⟨k, w⟩ := d
    simp only [write] at h
    split at h
    · simpa using h
    · split at h
      · simp only [List.mem_cons] at h ⊢
        tauto
      · simp only [List.mem_cons] at h ⊢
        rcases h with h | h
        · exact .inr (.inl h)
        · rcases ih h with h | h <;> tauto

theorem write_wf {m : Memory} {n : Nat} {v : Byte} (hm : wf m) (hn : n < Config.addressSpace) : wf (write m n v) := by
  refine ⟨?_, fun c hc => ?_⟩
  · obtain ⟨hp, -⟩ := hm
    induction m with
    | nil => simp [write]
    | cons d m ih =>
      obtain ⟨k, w⟩ := d
      rw [List.pairwise_cons] at hp
      simp only [write]
      split
      · next hlt =>
        refine List.pairwise_cons.2 ⟨fun c hc => ?_, List.pairwise_cons.2 hp⟩
        rcases List.mem_cons.1 hc with rfl | hc
        · exact hlt
        · exact Nat.lt_trans hlt (hp.1 c hc)
      · split
        · next heq => exact List.pairwise_cons.2 ⟨fun c hc => heq ▸ hp.1 c hc, hp.2⟩
        · refine List.pairwise_cons.2 ⟨fun c hc => ?_, ih hp.2⟩
          rcases mem_write hc with rfl | hc
          · show k < n
            omega
          · exact hp.1 c hc
  · rcases mem_write hc with rfl | hc
    · exact hn
    · exact hm.2 c hc

theorem writeList_wf {m : Memory} {n : Nat} {bs : List Byte} (hm : wf m) (hn : n + bs.length ≤ Config.addressSpace) :
    wf (writeList m n bs) := by
  induction bs generalizing m n with
  | nil => exact hm
  | cons b bs ih =>
    simp only [List.length_cons] at hn
    exact ih (write_wf hm (by omega)) (by omega)

/-- What a block write leaves listed: the block's bytes at its addresses, the old values elsewhere. -/
theorem find_writeList (m : Memory) (n a : Nat) (bs : List Byte) :
    find (writeList m n bs) a = if n ≤ a then (bs[a - n]?).or (find m a) else find m a := by
  induction bs generalizing m n with
  | nil => simp [writeList]
  | cons b bs ih =>
    rw [writeList, ih]
    rcases Nat.lt_trichotomy a n with h | rfl | h
    · rw [if_neg (by omega), if_neg (by omega), find_write_ne _ _ _ _ (by omega)]
    · rw [if_neg (by omega), if_pos (Nat.le_refl a), find_write_self]
      simp
    · obtain ⟨k, rfl⟩ : ∃ k, a = n + (k + 1) := ⟨a - n - 1, by omega⟩
      rw [if_pos (by omega), if_pos (by omega), find_write_ne _ _ _ _ (by omega)]
      have h1 : n + (k + 1) - (n + 1) = k := by omega
      have h2 : n + (k + 1) - n = k + 1 := by omega
      rw [h1, h2, List.getElem?_cons_succ]

theorem find_eq_none {m : Memory} {n : Nat} (h : ∀ c ∈ m, n < c.1) : find m n = none := by
  induction m with
  | nil => rfl
  | cons c m ih =>
    obtain ⟨k, w⟩ := c
    have hk : n < k := h (k, w) (by simp)
    rw [find, if_neg (by omega)]
    exact ih fun c hc => h c (by simp [hc])

theorem sorted_ext {m m' : Memory} (hp : m.Pairwise fun c d => c.1 < d.1) (hp' : m'.Pairwise fun c d => c.1 < d.1)
    (h : ∀ n, find m n = find m' n) : m = m' := by
  induction m generalizing m' with
  | nil =>
    cases m' with
    | nil => rfl
    | cons d m' => simpa [find] using h d.1
  | cons c m ih =>
    obtain ⟨k, w⟩ := c
    rw [List.pairwise_cons] at hp
    cases m' with
    | nil => simpa [find] using h k
    | cons d m' =>
      obtain ⟨k', w'⟩ := d
      rw [List.pairwise_cons] at hp'
      have hk : k = k' := by
        rcases Nat.lt_trichotomy k k' with hlt | heq | hgt
        · have hh := h k
          rw [find, if_pos rfl, find, if_neg (by omega),
            find_eq_none fun c hc => Nat.lt_trans hlt (hp'.1 c hc)] at hh
          simp at hh
        · exact heq
        · have hh := h k'
          rw [find, if_neg (by omega), find_eq_none fun c hc => Nat.lt_trans hgt (hp.1 c hc), find, if_pos rfl] at hh
          simp at hh
      subst hk
      have hw : w = w' := by simpa [find] using h k
      subst hw
      congr 1
      refine ih hp.2 hp'.2 fun n => ?_
      by_cases hn : n = k
      · subst hn
        rw [find_eq_none hp.1, find_eq_none hp'.1]
      · simpa [find, hn] using h n

/-- Canonical memories that list the same values are the same list, so equal memories are equal data. -/
theorem wf_ext {m m' : Memory} (hm : wf m) (hm' : wf m') (h : ∀ n, find m n = find m' n) : m = m' :=
  sorted_ext hm.1 hm'.1 h

end Sys2Proof.Machine.Memory
end

