-- ==== Sys2Proof/Laws/Ops.lean ====
section
/-! SUPPORT. What the shared operations answer, said once: byte writes, the fetch of a byte, of operand bytes and of an
instruction. -/

namespace Sys2Proof.Machine

theorem readByte_writeByte (s : State) (a b : Addr) (v : Byte) :
    (s.writeByte a v).readByte b = if b = a then v else s.readByte b := by
  split
  · next h => simp [h, State.readByte, State.writeByte_mem, Memory.find_write_self]
  · next h =>
    have hn : b.toNat ≠ a.toNat := fun hh => h (BitVec.eq_of_toNat_eq hh)
    simp [State.readByte, State.writeByte_mem, Memory.find_write_ne _ _ _ _ hn]

theorem writeByte_wf {s : State} {a : Addr} {v : Byte} (h : Memory.wf s.mem) : Memory.wf (s.writeByte a v).mem :=
  Memory.write_wf h a.isLt

theorem reset_wf : Memory.wf State.reset.mem := ⟨List.Pairwise.nil, nofun⟩

theorem placeAtPc_wf {s : State} {bs : List Byte} (h : Memory.wf s.mem) : Memory.wf (s.placeAtPc bs).mem := by
  refine Memory.writeList_wf h ?_
  have := s.pc.isLt
  simp only [List.length_take, Config.addressSpace]
  omega

theorem loadBytes_fits {s : State} {origin : Addr} {bs : List Byte}
    (h : origin.toNat + bs.length ≤ Config.addressSpace) :
    s.loadBytes origin bs = (s.setMem (Memory.writeList s.mem origin.toNat bs), none) :=
  if_neg (Nat.not_lt.2 h)

theorem loadBytes_overflows {s : State} {origin : Addr} {bs : List Byte}
    (h : Config.addressSpace < origin.toNat + bs.length) :
    s.loadBytes origin bs = (s, some (.loadOverflow origin bs.length)) :=
  if_pos h

theorem loadBytes_wf {s : State} {origin : Addr} {bs : List Byte} (hs : Memory.wf s.mem) :
    Memory.wf (s.loadBytes origin bs).1.mem := by
  by_cases h : Config.addressSpace < origin.toNat + bs.length
  · rwa [loadBytes_overflows h]
  · rw [loadBytes_fits (Nat.le_of_not_lt h)]
    exact Memory.writeList_wf hs (Nat.le_of_not_lt h)

theorem writeWord_wf {s t : State} {a v : Addr} (hs : Memory.wf s.mem) (h : s.writeWord a v = .next t) :
    Memory.wf t.mem := by
  unfold State.writeWord at h
  split at h
  · cases h
  · cases h
    exact writeByte_wf (writeByte_wf hs)

theorem fetchByte_top {s : State} (h : s.pc = 0xFFFF#16) :
    fetchByte s = .raised (s.raise (.addressOverrun Config.addressSpace)) := by
  simp [fetchByte, h]

theorem fetchByte_below {s : State} (h : s.pc ≠ 0xFFFF#16) :
    fetchByte s = .got (s.readByte s.pc) (s.setPc (s.pc + 1#16)) := by
  simp [fetchByte, h]

theorem toNat_succ {a : Addr} (h : a ≠ 0xFFFF#16) : (a + 1#16).toNat = a.toNat + 1 := by
  have : a.toNat ≠ 65535 := fun hh => h (BitVec.eq_of_toNat_eq hh)
  have := a.isLt
  simp only [BitVec.toNat_add, BitVec.toNat_ofNat]
  omega

end Sys2Proof.Machine
end

