-- ==== Sys2Proof/Laws/Commands.lean ====
section
/-! SUPPORT. What the host command `load` can end in, said once (50_interfaces.md rule R203). -/

namespace Sys2Proof.Machine

/-- The state a successful load leaves. -/
def loadedState (program : List Byte) (s : State) : State :=
  (s.setMem (Memory.writeList s.mem Config.origin.toNat program)).setPc Config.origin

theorem load_fits {program : List Byte} {s : State} (hr : s.run = .reset) (h : program.length ≤ 0x8000) :
    load program s = .next (loadedState program s, .loaded) := by
  have hfit : Config.origin.toNat + program.length ≤ Config.addressSpace := by
    simp only [Config.origin, Config.addressSpace, BitVec.toNat_ofNat]
    omega
  simp only [load, if_pos hr, loadBytes_fits hfit, loadedState]

theorem load_overflows {program : List Byte} {s : State} (hr : s.run = .reset) (h : 0x8000 < program.length) :
    load program s = .next (s, .error (some (.loadOverflow Config.origin program.length))) := by
  have hover : Config.addressSpace < Config.origin.toNat + program.length := by
    simp only [Config.origin, Config.addressSpace, BitVec.toNat_ofNat]
    omega
  simp only [load, if_pos hr, loadBytes_overflows hover]

theorem load_outside_reset {program : List Byte} {s : State} (hr : s.run ≠ .reset) :
    load program s = .refused .loadOutsideReset :=
  if_neg hr

/-- What a `load` that has a next state can end in. -/
inductive LoadEnds (program : List Byte) (s : State) : State → CommandResult → Prop where
  /-- The program was installed. -/
  | loaded (hlen : program.length ≤ 0x8000) : LoadEnds program s (loadedState program s) .loaded
  /-- The program did not fit, and nothing changed. -/
  | overflow (hlen : 0x8000 < program.length) :
      LoadEnds program s s (.error (some (.loadOverflow Config.origin program.length)))

/-- Inversion of `load`. -/
theorem load_ends {program : List Byte} {s t : State} {r : CommandResult} (h : load program s = .next (t, r)) :
    s.run = .reset ∧ LoadEnds program s t r := by
  by_cases hr : s.run = .reset
  · by_cases hlen : program.length ≤ 0x8000
    · rw [load_fits hr hlen] at h
      cases h
      exact ⟨hr, .loaded hlen⟩
    · rw [load_overflows hr (Nat.lt_of_not_le hlen)] at h
      cases h
      exact ⟨hr, .overflow (Nat.lt_of_not_le hlen)⟩
  · rw [load_outside_reset hr] at h
    cases h

/-- A load keeps the canonical form of memory. -/
theorem load_wf {program : List Byte} {s t : State} {r : CommandResult} (hs : Memory.wf s.mem)
    (h : load program s = .next (t, r)) : Memory.wf t.mem := by
  cases (load_ends h).2 with
  | loaded hlen =>
    refine Memory.writeList_wf hs ?_
    simp only [Config.origin, Config.addressSpace, BitVec.toNat_ofNat]
    omega
  | overflow => exact hs

end Sys2Proof.Machine
end

