-- ==== Sys2Proof/Laws/PerInstr.lean ====
section
/-! SUPPORT. Per-instruction facts about the encoding: the opcode byte of an instruction finds, in the EXT table, the row
that makes this instruction of its operand bytes. -/

namespace Sys2Proof.Laws.RowOfInstr

/-- The opcode's row has as many operand bytes as the instruction and assembles it from them, leaving the rest. -/
def Statement (i : Instr) : Prop :=
  ∃ e, dispatch .ext i.opcode = some e ∧ i.operandBytes.length = Machine.operandCount e ∧
    ∀ rest, e.assemble (i.operandBytes ++ rest) = some (i, rest)

theorem brk : Statement .brk := ⟨_, rfl, rfl, fun _ => rfl⟩
theorem ldaImm (imm8 : Byte) : Statement (.ldaImm imm8) := ⟨_, rfl, rfl, fun _ => rfl⟩
theorem tax : Statement .tax := ⟨_, rfl, rfl, fun _ => rfl⟩
theorem inx : Statement .inx := ⟨_, rfl, rfl, fun _ => rfl⟩
theorem ldaZp (zp8 : Byte) : Statement (.ldaZp zp8) := ⟨_, rfl, rfl, fun _ => rfl⟩
theorem ldaZpX (zp8 : Byte) : Statement (.ldaZpX zp8) := ⟨_, rfl, rfl, fun _ => rfl⟩
theorem ldaAbs (lo8 hi8 : Byte) : Statement (.ldaAbs lo8 hi8) := ⟨_, rfl, rfl, fun _ => rfl⟩
theorem ldaAbsX (lo8 hi8 : Byte) : Statement (.ldaAbsX lo8 hi8) := ⟨_, rfl, rfl, fun _ => rfl⟩
theorem ldaAbsY (lo8 hi8 : Byte) : Statement (.ldaAbsY lo8 hi8) := ⟨_, rfl, rfl, fun _ => rfl⟩
theorem ldaIndX (zp8 : Byte) : Statement (.ldaIndX zp8) := ⟨_, rfl, rfl, fun _ => rfl⟩
theorem ldaIndY (zp8 : Byte) : Statement (.ldaIndY zp8) := ⟨_, rfl, rfl, fun _ => rfl⟩
theorem staZp (zp8 : Byte) : Statement (.staZp zp8) := ⟨_, rfl, rfl, fun _ => rfl⟩
theorem staZpX (zp8 : Byte) : Statement (.staZpX zp8) := ⟨_, rfl, rfl, fun _ => rfl⟩
theorem staAbs (lo8 hi8 : Byte) : Statement (.staAbs lo8 hi8) := ⟨_, rfl, rfl, fun _ => rfl⟩
theorem staAbsX (lo8 hi8 : Byte) : Statement (.staAbsX lo8 hi8) := ⟨_, rfl, rfl, fun _ => rfl⟩
theorem staAbsY (lo8 hi8 : Byte) : Statement (.staAbsY lo8 hi8) := ⟨_, rfl, rfl, fun _ => rfl⟩
theorem staIndX (zp8 : Byte) : Statement (.staIndX zp8) := ⟨_, rfl, rfl, fun _ => rfl⟩
theorem staIndY (zp8 : Byte) : Statement (.staIndY zp8) := ⟨_, rfl, rfl, fun _ => rfl⟩
theorem adcImm (imm8 : Byte) : Statement (.adcImm imm8) := ⟨_, rfl, rfl, fun _ => rfl⟩
theorem adcZp (zp8 : Byte) : Statement (.adcZp zp8) := ⟨_, rfl, rfl, fun _ => rfl⟩
theorem adcZpX (zp8 : Byte) : Statement (.adcZpX zp8) := ⟨_, rfl, rfl, fun _ => rfl⟩
theorem adcAbs (lo8 hi8 : Byte) : Statement (.adcAbs lo8 hi8) := ⟨_, rfl, rfl, fun _ => rfl⟩
theorem adcAbsX (lo8 hi8 : Byte) : Statement (.adcAbsX lo8 hi8) := ⟨_, rfl, rfl, fun _ => rfl⟩
theorem adcAbsY (lo8 hi8 : Byte) : Statement (.adcAbsY lo8 hi8) := ⟨_, rfl, rfl, fun _ => rfl⟩
theorem adcIndX (zp8 : Byte) : Statement (.adcIndX zp8) := ⟨_, rfl, rfl, fun _ => rfl⟩
theorem adcIndY (zp8 : Byte) : Statement (.adcIndY zp8) := ⟨_, rfl, rfl, fun _ => rfl⟩
theorem sbcImm (imm8 : Byte) : Statement (.sbcImm imm8) := ⟨_, rfl, rfl, fun _ => rfl⟩
theorem sbcZp (zp8 : Byte) : Statement (.sbcZp zp8) := ⟨_, rfl, rfl, fun _ => rfl⟩
theorem sbcZpX (zp8 : Byte) : Statement (.sbcZpX zp8) := ⟨_, rfl, rfl, fun _ => rfl⟩
theorem sbcAbs (lo8 hi8 : Byte) : Statement (.sbcAbs lo8 hi8) := ⟨_, rfl, rfl, fun _ => rfl⟩
theorem sbcAbsX (lo8 hi8 : Byte) : Statement (.sbcAbsX lo8 hi8) := ⟨_, rfl, rfl, fun _ => rfl⟩
theorem sbcAbsY (lo8 hi8 : Byte) : Statement (.sbcAbsY lo8 hi8) := ⟨_, rfl, rfl, fun _ => rfl⟩
theorem sbcIndX (zp8 : Byte) : Statement (.sbcIndX zp8) := ⟨_, rfl, rfl, fun _ => rfl⟩
theorem sbcIndY (zp8 : Byte) : Statement (.sbcIndY zp8) := ⟨_, rfl, rfl, fun _ => rfl⟩
theorem aslAcc : Statement .aslAcc := ⟨_, rfl, rfl, fun _ => rfl⟩
theorem aslZp (zp8 : Byte) : Statement (.aslZp zp8) := ⟨_, rfl, rfl, fun _ => rfl⟩
theorem aslZpX (zp8 : Byte) : Statement (.aslZpX zp8) := ⟨_, rfl, rfl, fun _ => rfl⟩
theorem aslAbs (lo8 hi8 : Byte) : Statement (.aslAbs lo8 hi8) := ⟨_, rfl, rfl, fun _ => rfl⟩
theorem aslAbsX (lo8 hi8 : Byte) : Statement (.aslAbsX lo8 hi8) := ⟨_, rfl, rfl, fun _ => rfl⟩
theorem lsrAcc : Statement .lsrAcc := ⟨_, rfl, rfl, fun _ => rfl⟩
theorem lsrZp (zp8 : Byte) : Statement (.lsrZp zp8) := ⟨_, rfl, rfl, fun _ => rfl⟩
theorem lsrZpX (zp8 : Byte) : Statement (.lsrZpX zp8) := ⟨_, rfl, rfl, fun _ => rfl⟩
theorem lsrAbs (lo8 hi8 : Byte) : Statement (.lsrAbs lo8 hi8) := ⟨_, rfl, rfl, fun _ => rfl⟩
theorem lsrAbsX (lo8 hi8 : Byte) : Statement (.lsrAbsX lo8 hi8) := ⟨_, rfl, rfl, fun _ => rfl⟩
theorem bitZp (zp8 : Byte) : Statement (.bitZp zp8) := ⟨_, rfl, rfl, fun _ => rfl⟩
theorem bitAbs (lo8 hi8 : Byte) : Statement (.bitAbs lo8 hi8) := ⟨_, rfl, rfl, fun _ => rfl⟩

end Sys2Proof.Laws.RowOfInstr
end

