-- ==== Sys2Proof/Laws/Decode.lean ====
section
/-! SUPPORT. What a row of the dispatch tables makes: an instruction with the row's opcode, the operand bytes it was
given, and the profile it belongs to. -/

namespace Sys2Proof

open Machine

/-- A row makes, of any operand bytes, an instruction that encodes to the row's opcode and those bytes. -/
def Row.Sound (o : Opset) (r : Row) : Prop :=
  ∀ (bytes rest : List Byte) (i : Instr), r.entry.assemble bytes = some (i, rest) →
    i.opcode = r.opcode ∧ bytes = i.operandBytes ++ rest ∧ i.operandBytes.length = operandCount r.entry ∧
      i.wellFormed o = true

/-- `Row.Sound` said of the row's instruction, format by format. -/
def Row.Matches (o : Opset) (r : Row) : Prop :=
  match r.entry with
  | .imp i => i.opcode = r.opcode ∧ i.operandBytes = [] ∧ i.wellFormed o = true
  | .acc i => i.opcode = r.opcode ∧ i.operandBytes = [] ∧ i.wellFormed o = true
  | .imm f => ∀ b, (f b).opcode = r.opcode ∧ (f b).operandBytes = [b] ∧ (f b).wellFormed o = true
  | .zpg f => ∀ b, (f b).opcode = r.opcode ∧ (f b).operandBytes = [b] ∧ (f b).wellFormed o = true
  | .abs f => ∀ l u, (f l u).opcode = r.opcode ∧ (f l u).operandBytes = [l, u] ∧ (f l u).wellFormed o = true

theorem Row.sound_of_matches {o : Opset} {r : Row} (h : r.Matches o) : r.Sound o := by
  obtain ⟨op, e⟩ := r
  intro bytes rest i ha
  cases e with
  | imp j => cases ha; exact ⟨h.1, by simp [h.2.1], by simp [h.2.1, operandCount], h.2.2⟩
  | acc j => cases ha; exact ⟨h.1, by simp [h.2.1], by simp [h.2.1, operandCount], h.2.2⟩
  | imm f =>
    match bytes, ha with
    | b :: _, rfl => exact ⟨(h b).1, by simp [(h b).2.1], by simp [(h b).2.1, operandCount], (h b).2.2⟩
  | zpg f =>
    match bytes, ha with
    | b :: _, rfl => exact ⟨(h b).1, by simp [(h b).2.1], by simp [(h b).2.1, operandCount], (h b).2.2⟩
  | abs f =>
    match bytes, ha with
    | l :: u :: _, rfl => exact ⟨(h l u).1, by simp [(h l u).2.1], by simp [(h l u).2.1, operandCount], (h l u).2.2⟩

theorem baseTable_matches (o : Opset) : ∀ r ∈ baseTable, r.Matches o := by
  cases o <;> simp [baseTable, Row.Matches, Instr.opcode, Instr.operandBytes, Instr.wellFormed, Instr.isBase]

theorem extTable_matches : ∀ r ∈ extTable, r.Matches .ext := by
  simp [extTable, ldaRows, staRows, adcRows, sbcRows, aslRows, lsrRows, bitRows, Row.Matches, Instr.opcode,
    Instr.operandBytes, Instr.wellFormed]

/-- What a dispatch-table entry makes of operand bytes. -/
theorem dispatch_sound {o : Opset} {op : Byte} {e : Entry} (h : dispatch o op = some e) : Row.Sound o ⟨op, e⟩ := by
  obtain ⟨r, hr, rfl⟩ := Option.map_eq_some_iff.1 h
  have hop : r.opcode = op := by simpa using List.find?_some hr
  subst hop
  have hmem := List.mem_of_find?_eq_some hr
  refine Row.sound_of_matches ?_
  cases o with
  | base => exact baseTable_matches _ r hmem
  | ext =>
    rcases List.mem_append.1 hmem with hm | hm
    · exact baseTable_matches _ r hm
    · exact extTable_matches r hm

end Sys2Proof
end

