-- ==== Sys2Proof/Laws/Flags.lean ====
section
/-! SUPPORT. What each flag computation leaves in each flag. -/

namespace Sys2Proof.Machine

/-- Writing one flag sets it and keeps the other seven. -/
@[simp] theorem flag_setFlag (f g : Flag) (p : Byte) (on : Bool) :
    flag f (setFlag g p on) = if f = g then on else flag f p := by
  cases on <;> cases f <;> cases g <;> simp [flag, setFlag, Flag.bit, Flag.mask]

/-- A flag of the packed `SetZN` formula. -/
@[simp] theorem flag_setZN (f : Flag) (p r : Byte) :
    flag f (setZN p r) = if f = .z then decide (r = 0x00#8) else if f = .n then r.getLsbD 7 else flag f p := by
  by_cases h : r = 0x00#8
  · subst h
    cases f <;> simp [flag, setZN, Flag.bit]
  · have hz : (if r = 0x00#8 then 0x02#8 else 0x00#8) = 0x00#8 := if_neg h
    unfold setZN
    rw [hz]
    cases f <;> simp [flag, Flag.bit, h]

/-- Two status bytes with the same eight flags are the same byte. -/
theorem eq_of_flags {p q : Byte} (h : ∀ f, flag f p = flag f q) : p = q := by
  apply BitVec.eq_of_getLsbD_eq
  intro k hk
  have hc := h .c
  have hz := h .z
  have hi := h .i
  have hd := h .d
  have hb := h .b
  have hu := h .u
  have hv := h .v
  have hn := h .n
  simp only [flag, Flag.bit] at hc hz hi hd hb hu hv hn
  interval_cases k <;> assumption

/-- BRK's `P | 0x10` sets Break and keeps the other seven flags. -/
@[simp] theorem flag_or_break (f : Flag) (p : Byte) : flag f (p ||| Flag.b.mask) = (if f = .b then true else flag f p) := by
  cases f <;> simp [flag, Flag.bit, Flag.mask]

end Sys2Proof.Machine
end

