-- ==== Sys2Proof/Laws/Exec.lean ====
section
/-! SUPPORT. What the execute phase can do, said once: every next state of `exec` is one of twelve actions. -/

namespace Sys2Proof.Machine

/-- The actions of the instruction families: `Acts i s t` says that `t` is what one of them makes of `s`, BRK's only for
BRK. -/
inductive Acts (i : Instr) (s : State) : State → Prop where
  /-- LDA. -/
  | loads (v : Byte) : Acts i s (loadA v s)
  /-- STA. -/
  | stores (m : MemOperand) : Acts i s (storeA m s)
  /-- TAX. -/
  | transfers : Acts i s ((s.setX s.a).setP (setZN s.p s.a))
  /-- INX. -/
  | increments : Acts i s ((s.setX (s.x + 1#8)).setP (setZN s.p (s.x + 1#8)))
  /-- BRK. -/
  | halts (h : i = .brk) : Acts i s ((s.setP (s.p ||| Flag.b.mask)).setRun .halted)
  /-- ADC. -/
  | adds (v : Byte) : Acts i s (addToA v s)
  /-- SBC. -/
  | subtracts (v : Byte) : Acts i s (subFromA v s)
  /-- ASL A. -/
  | shiftsLeftA : Acts i s (shiftLeftA s)
  /-- ASL on memory. -/
  | shiftsLeftMem (m : MemOperand) : Acts i s (shiftLeftMem m s)
  /-- LSR A. -/
  | shiftsRightA : Acts i s (shiftRightA s)
  /-- LSR on memory. -/
  | shiftsRightMem (m : MemOperand) : Acts i s (shiftRightMem m s)
  /-- BIT. -/
  | tests (m : MemOperand) : Acts i s (testBits m s)

/-- Inversion of `exec`: a next state is the action of the instruction's family. -/
theorem exec_acts {s t : State} : ∀ (i : Instr), exec i s = .next t → Acts i s t
  | .brk, rfl => .halts rfl
  | .ldaImm _, rfl => .loads _
  | .tax, rfl => .transfers
  | .inx, rfl => .increments
  | .ldaZp _, rfl => .loads _
  | .ldaZpX _, rfl => .loads _
  | .ldaAbs _ _, rfl => .loads _
  | .ldaAbsX _ _, rfl => .loads _
  | .ldaAbsY _ _, rfl => .loads _
  | .ldaIndX _, rfl => .loads _
  | .ldaIndY _, rfl => .loads _
  | .staZp _, rfl => .stores _
  | .staZpX _, rfl => .stores _
  | .staAbs _ _, rfl => .stores _
  | .staAbsX _ _, rfl => .stores _
  | .staAbsY _ _, rfl => .stores _
  | .staIndX _, rfl => .stores _
  | .staIndY _, rfl => .stores _
  | .adcImm _, rfl => .adds _
  | .adcZp _, rfl => .adds _
  | .adcZpX _, rfl => .adds _
  | .adcAbs _ _, rfl => .adds _
  | .adcAbsX _ _, rfl => .adds _
  | .adcAbsY _ _, rfl => .adds _
  | .adcIndX _, rfl => .adds _
  | .adcIndY _, rfl => .adds _
  | .sbcImm _, rfl => .subtracts _
  | .sbcZp _, rfl => .subtracts _
  | .sbcZpX _, rfl => .subtracts _
  | .sbcAbs _ _, rfl => .subtracts _
  | .sbcAbsX _ _, rfl => .subtracts _
  | .sbcAbsY _ _, rfl => .subtracts _
  | .sbcIndX _, rfl => .subtracts _
  | .sbcIndY _, rfl => .subtracts _
  | .aslAcc, rfl => .shiftsLeftA
  | .aslZp _, rfl => .shiftsLeftMem _
  | .aslZpX _, rfl => .shiftsLeftMem _
  | .aslAbs _ _, rfl => .shiftsLeftMem _
  | .aslAbsX _ _, rfl => .shiftsLeftMem _
  | .lsrAcc, rfl => .shiftsRightA
  | .lsrZp _, rfl => .shiftsRightMem _
  | .lsrZpX _, rfl => .shiftsRightMem _
  | .lsrAbs _ _, rfl => .shiftsRightMem _
  | .lsrAbsX _ _, rfl => .shiftsRightMem _
  | .bitZp _, rfl => .tests _
  | .bitAbs _ _, rfl => .tests _

end Sys2Proof.Machine
end

