-- ==== Sys2Proof/Laws/Fetch.lean ====
section
/-! SUPPORT. What the fetch of an instruction answers, said once, in the four cases of 60_exceptions.md rule R230, and the
step in terms of it. -/

namespace Sys2Proof.Machine

theorem toNat_add_lit {a : Addr} (k : Nat) (h : a.toNat + k ≤ 0xFFFF) :
    (a + BitVec.ofNat 16 k).toNat = a.toNat + k := by
  simp only [BitVec.toNat_add, BitVec.toNat_ofNat]
  omega

theorem ne_top_of_lt {a : Addr} (h : a.toNat < 0xFFFF) : a ≠ 0xFFFF#16 := by
  rintro rfl
  simp at h

theorem lt_top_of_ne {a : Addr} (h : a ≠ 0xFFFF#16) : a.toNat < 0xFFFF := by
  have h1 := a.isLt
  have h2 : a.toNat ≠ 0xFFFF := fun hh => h (BitVec.eq_of_toNat_eq hh)
  omega

theorem fetchByte_lt {s : State} (h : s.pc.toNat < 0xFFFF) :
    fetchByte s = .got (s.readByte s.pc) (s.setPc (s.pc + 1#16)) :=
  fetchByte_below (ne_top_of_lt h)

/-- The instruction an entry makes of the bytes at the next two addresses. -/
def operandsAt (s : State) (e : Entry) : Option (Instr × List Byte) :=
  e.assemble [s.readByte s.pc, s.readByte (s.pc + 1#16)]

/-- Operand bytes that all lie below 0xFFFF are fetched, and PC ends past them. -/
theorem fetchOperands_got {s : State} {e : Entry} {i : Instr} {rest : List Byte} (h : operandsAt s e = some (i, rest))
    (hp : s.pc.toNat + operandCount e ≤ 0xFFFF) :
    fetchOperands e s = .got i (s.setPc (s.pc + BitVec.ofNat 16 (operandCount e))) := by
  cases e with
  | imp j | acc j => cases h; simp [fetchOperands, operandCount, State.setPc]
  | imm f | zpg f =>
    cases h
    rw [fetchOperands, fetchByte_lt (by simp only [operandCount] at hp; omega)]
    rfl
  | abs f =>
    cases h
    simp only [operandCount] at hp
    have h1 := toNat_add_lit (a := s.pc) 1 (by omega)
    rw [fetchOperands, fetchByte_lt (by omega), Fetched.andThen, fetchByte_lt (by simp only [State.setPc_pc]; omega)]
    have h2 : s.pc + 1#16 + 1#16 = s.pc + BitVec.ofNat 16 2 := by rw [BitVec.add_assoc]; rfl
    rw [Fetched.andThen, State.setPc_pc, h2, State.readByte_setPc]
    rfl

/-- Operand bytes that do not all lie below 0xFFFF raise AddressOverrun, with PC at 0xFFFF. -/
theorem fetchOperands_raised {s : State} {e : Entry} (hp : 0xFFFF < s.pc.toNat + operandCount e) :
    fetchOperands e s = .raised ((s.setPc 0xFFFF#16).raise (.addressOverrun Config.addressSpace)) := by
  have hlt := s.pc.isLt
  have hset : s.pc = 0xFFFF#16 → s.setPc 0xFFFF#16 = s := fun h => by rw [← h]; rfl
  have htop : s.pc.toNat = 0xFFFF → s.pc = 0xFFFF#16 := fun h => BitVec.eq_of_toNat_eq h
  cases e with
  | imp | acc => simp only [operandCount] at hp; omega
  | imm f | zpg f =>
    have hpc := htop (by simp only [operandCount] at hp; omega)
    rw [fetchOperands, fetchByte_top hpc, hset hpc]
    rfl
  | abs f =>
    simp only [operandCount] at hp
    by_cases h : s.pc.toNat = 0xFFFF
    · rw [fetchOperands, fetchByte_top (htop h), hset (htop h)]
      rfl
    · have h1 : s.pc + 1#16 = 0xFFFF#16 := by
        apply BitVec.eq_of_toNat_eq
        rw [toNat_add_lit 1 (by omega)]
        simp only [BitVec.toNat_ofNat]
        omega
      rw [fetchOperands, fetchByte_lt (by omega), Fetched.andThen, h1, fetchByte_top rfl]
      rfl

/-- Case 1 of rule R230: the opcode fetch at 0xFFFF. -/
theorem fetchInstr_top (o : Opset) {s : State} (h : s.pc = 0xFFFF#16) :
    fetchInstr o s = .raised (s.raise (.addressOverrun Config.addressSpace)) := by
  rw [fetchInstr, fetchByte_top h, Fetched.andThen]

/-- Case 2 of rule R230: an opcode byte without an entry. -/
theorem fetchInstr_unimplemented {o : Opset} {s : State} (h : s.pc.toNat < 0xFFFF)
    (hd : dispatch o (s.readByte s.pc) = none) :
    fetchInstr o s = .raised ((s.setPc (s.pc + 1#16)).raise (.unimplementedOpcode (s.readByte s.pc) s.pc)) := by
  rw [fetchInstr, fetchByte_lt h, Fetched.andThen, hd]

/-- Case 3 of rule R230: an operand byte at 0xFFFF or past it. -/
theorem fetchInstr_operand_raised {o : Opset} {s : State} {e : Entry} (h : s.pc.toNat < 0xFFFF)
    (hd : dispatch o (s.readByte s.pc) = some e) (hp : 0xFFFF < s.pc.toNat + 1 + operandCount e) :
    fetchInstr o s = .raised ((s.setPc 0xFFFF#16).raise (.addressOverrun Config.addressSpace)) := by
  have h1 := toNat_add_lit (a := s.pc) 1 (by omega)
  rw [fetchInstr, fetchByte_lt h, Fetched.andThen, hd]
  show fetchOperands e _ = _
  rw [fetchOperands_raised (by simp only [State.setPc_pc]; omega)]
  rfl

/-- The instruction an entry makes of the bytes after the opcode at PC. -/
def instrAt (s : State) (e : Entry) : Option (Instr × List Byte) :=
  e.assemble [s.readByte (s.pc + 1#16), s.readByte (s.pc + 2#16)]

/-- No condition: the instruction is fetched and PC is past it. -/
theorem fetchInstr_got {o : Opset} {s : State} {e : Entry} {i : Instr} {rest : List Byte}
    (hd : dispatch o (s.readByte s.pc) = some e) (hi : instrAt s e = some (i, rest))
    (hp : s.pc.toNat + 1 + operandCount e ≤ 0xFFFF) :
    fetchInstr o s = .got i (s.setPc (s.pc + BitVec.ofNat 16 (1 + operandCount e))) := by
  have h1 := toNat_add_lit (a := s.pc) 1 (by omega)
  have h2 : s.pc + 1#16 + 1#16 = s.pc + 2#16 := by rw [BitVec.add_assoc]; rfl
  rw [fetchInstr, fetchByte_lt (by omega), Fetched.andThen, hd]
  show fetchOperands e _ = _
  rw [fetchOperands_got (i := i) (rest := rest) (by simpa [operandsAt, instrAt, h2] using hi)
    (by simp only [State.setPc_pc]; omega)]
  simp [State.setPc, BitVec.add_assoc, BitVec.ofNat_add]

theorem instrAt_some (s : State) (e : Entry) : ∃ i rest, instrAt s e = some (i, rest) := by
  cases e <;> exact ⟨_, _, rfl⟩

/-! ## The step -/

theorem stepWith_terminal {o : Opset} {s : State} (h : s.terminal = true) : stepWith o s = .next s := by
  simp [stepWith, h]

theorem stepWith_live {o : Opset} {s : State} (h : s.terminal = false) :
    stepWith o s = finish (fetchInstr o (s.setRun .running)) := by
  simp [stepWith, h]

/-- What a step from Reset or Running can end in. -/
inductive StepEnds (o : Opset) (s t : State) : Prop where
  /-- A condition was raised: PC is not behind, ERR holds it, RUN is Faulted, the rest is kept. -/
  | raised (pc : Addr) (c : Condition) (hpc : s.pc.toNat ≤ pc.toNat)
      (hc : c = .unimplementedOpcode (s.readByte s.pc) s.pc ∨ c = .addressOverrun Config.addressSpace)
      (ht : t = (s.setPc pc).raise c)
  /-- The instruction at PC was executed, with PC past it. -/
  | executed (e : Entry) (i : Instr) (rest : List Byte) (hd : dispatch o (s.readByte s.pc) = some e)
      (hi : instrAt s e = some (i, rest)) (hp : s.pc.toNat + 1 + operandCount e ≤ 0xFFFF)
      (ht : exec i ((s.setRun .running).setPc (s.pc + BitVec.ofNat 16 (1 + operandCount e))) = .next t)

/-- Inversion of the step. -/
theorem stepWith_ends {o : Opset} {s t : State} (hl : s.terminal = false) (h : stepWith o s = .next t) :
    StepEnds o s t := by
  rw [stepWith_live hl] at h
  have hlt := s.pc.isLt
  by_cases htop : s.pc = 0xFFFF#16
  · rw [fetchInstr_top o (by exact htop)] at h
    cases h
    exact .raised s.pc _ (Nat.le_refl _) (.inr rfl) rfl
  · have hp := lt_top_of_ne htop
    cases hd : dispatch o (s.readByte s.pc) with
    | none =>
      rw [fetchInstr_unimplemented (by exact hp) (by exact hd)] at h
      cases h
      exact .raised (s.pc + 1#16) _ (by rw [toNat_add_lit 1 (by omega)]; omega) (.inl rfl) rfl
    | some e =>
      by_cases hover : 0xFFFF < s.pc.toNat + 1 + operandCount e
      · rw [fetchInstr_operand_raised (by exact hp) (by exact hd) (by exact hover)] at h
        cases h
        exact .raised 0xFFFF#16 _ (by simp only [BitVec.toNat_ofNat]; omega) (.inr rfl) rfl
      · obtain ⟨i, rest, hi⟩ := instrAt_some s e
        have hle : s.pc.toNat + 1 + operandCount e ≤ 0xFFFF := by omega
        rw [fetchInstr_got (s := s.setRun .running) hd hi hle] at h
        exact .executed e i rest hd hi hle h

end Sys2Proof.Machine
end

