-- ==== Sys2Proof/Tests/Slice0.lean ====
section
/-! SUPPORT. Tests of the model. Words are written out bit by bit from the encodings of 30_encoding.md rule R74 and
45_ext_addressing.md rule R140; expected results come from 95_test_vectors.md, whose vector each test names, or from the
rule it names. The last part has one witness theorem for every obligation with hypotheses: a concrete state and operands
that meet them together. -/

namespace Sys2Proof.Tests

open Sys2Proof.Machine Sys2Proof.Claims

/-! ## Well-formedness: the one check, refused and passed -/

theorem test_wellFormed_refuses_ext_instruction_in_base :
    (Instr.adcImm 0x01#8).wellFormed .base = false ∧ Instr.lsrAcc.wellFormed .base = false ∧
    (Instr.staAbs 0x00#8 0x03#8).wellFormed .base = false := by decide

theorem test_wellFormed_accepts :
    (Instr.ldaImm 0x01#8).wellFormed .base = true ∧ (Instr.adcImm 0x01#8).wellFormed .ext = true := by decide

/-! ## Decoding, every constructor, from words written out -/

theorem test_decode_base :
    decode .base [0b00000000#8] = .ok (.brk, []) ∧
    decode .base [0b10101001#8, 0x34#8] = .ok (.ldaImm 0x34#8, []) ∧
    decode .base [0b10101010#8] = .ok (.tax, []) ∧
    decode .base [0b11101000#8] = .ok (.inx, []) := by
  repeat' constructor

theorem test_decode_lda :
    decode .ext [0b10100101#8, 0x34#8] = .ok (.ldaZp 0x34#8, []) ∧
    decode .ext [0b10110101#8, 0x34#8] = .ok (.ldaZpX 0x34#8, []) ∧
    decode .ext [0b10101101#8, 0x34#8, 0x12#8] = .ok (.ldaAbs 0x34#8 0x12#8, []) ∧
    decode .ext [0b10111101#8, 0x34#8, 0x12#8] = .ok (.ldaAbsX 0x34#8 0x12#8, []) ∧
    decode .ext [0b10111001#8, 0x34#8, 0x12#8] = .ok (.ldaAbsY 0x34#8 0x12#8, []) ∧
    decode .ext [0b10100001#8, 0x34#8] = .ok (.ldaIndX 0x34#8, []) ∧
    decode .ext [0b10110001#8, 0x34#8] = .ok (.ldaIndY 0x34#8, []) := by
  repeat' constructor

theorem test_decode_sta :
    decode .ext [0b10000101#8, 0x34#8] = .ok (.staZp 0x34#8, []) ∧
    decode .ext [0b10010101#8, 0x34#8] = .ok (.staZpX 0x34#8, []) ∧
    decode .ext [0b10001101#8, 0x34#8, 0x12#8] = .ok (.staAbs 0x34#8 0x12#8, []) ∧
    decode .ext [0b10011101#8, 0x34#8, 0x12#8] = .ok (.staAbsX 0x34#8 0x12#8, []) ∧
    decode .ext [0b10011001#8, 0x34#8, 0x12#8] = .ok (.staAbsY 0x34#8 0x12#8, []) ∧
    decode .ext [0b10000001#8, 0x34#8] = .ok (.staIndX 0x34#8, []) ∧
    decode .ext [0b10010001#8, 0x34#8] = .ok (.staIndY 0x34#8, []) := by
  repeat' constructor

theorem test_decode_adc :
    decode .ext [0b01101001#8, 0x34#8] = .ok (.adcImm 0x34#8, []) ∧
    decode .ext [0b01100101#8, 0x34#8] = .ok (.adcZp 0x34#8, []) ∧
    decode .ext [0b01110101#8, 0x34#8] = .ok (.adcZpX 0x34#8, []) ∧
    decode .ext [0b01101101#8, 0x34#8, 0x12#8] = .ok (.adcAbs 0x34#8 0x12#8, []) ∧
    decode .ext [0b01111101#8, 0x34#8, 0x12#8] = .ok (.adcAbsX 0x34#8 0x12#8, []) ∧
    decode .ext [0b01111001#8, 0x34#8, 0x12#8] = .ok (.adcAbsY 0x34#8 0x12#8, []) ∧
    decode .ext [0b01100001#8, 0x34#8] = .ok (.adcIndX 0x34#8, []) ∧
    decode .ext [0b01110001#8, 0x34#8] = .ok (.adcIndY 0x34#8, []) := by
  repeat' constructor

theorem test_decode_sbc :
    decode .ext [0b11101001#8, 0x34#8] = .ok (.sbcImm 0x34#8, []) ∧
    decode .ext [0b11100101#8, 0x34#8] = .ok (.sbcZp 0x34#8, []) ∧
    decode .ext [0b11110101#8, 0x34#8] = .ok (.sbcZpX 0x34#8, []) ∧
    decode .ext [0b11101101#8, 0x34#8, 0x12#8] = .ok (.sbcAbs 0x34#8 0x12#8, []) ∧
    decode .ext [0b11111101#8, 0x34#8, 0x12#8] = .ok (.sbcAbsX 0x34#8 0x12#8, []) ∧
    decode .ext [0b11111001#8, 0x34#8, 0x12#8] = .ok (.sbcAbsY 0x34#8 0x12#8, []) ∧
    decode .ext [0b11100001#8, 0x34#8] = .ok (.sbcIndX 0x34#8, []) ∧
    decode .ext [0b11110001#8, 0x34#8] = .ok (.sbcIndY 0x34#8, []) := by
  repeat' constructor

theorem test_decode_asl :
    decode .ext [0b00001010#8] = .ok (.aslAcc, []) ∧
    decode .ext [0b00000110#8, 0x34#8] = .ok (.aslZp 0x34#8, []) ∧
    decode .ext [0b00010110#8, 0x34#8] = .ok (.aslZpX 0x34#8, []) ∧
    decode .ext [0b00001110#8, 0x34#8, 0x12#8] = .ok (.aslAbs 0x34#8 0x12#8, []) ∧
    decode .ext [0b00011110#8, 0x34#8, 0x12#8] = .ok (.aslAbsX 0x34#8 0x12#8, []) := by
  repeat' constructor

theorem test_decode_lsr :
    decode .ext [0b01001010#8] = .ok (.lsrAcc, []) ∧
    decode .ext [0b01000110#8, 0x34#8] = .ok (.lsrZp 0x34#8, []) ∧
    decode .ext [0b01010110#8, 0x34#8] = .ok (.lsrZpX 0x34#8, []) ∧
    decode .ext [0b01001110#8, 0x34#8, 0x12#8] = .ok (.lsrAbs 0x34#8 0x12#8, []) ∧
    decode .ext [0b01011110#8, 0x34#8, 0x12#8] = .ok (.lsrAbsX 0x34#8 0x12#8, []) := by
  repeat' constructor

theorem test_decode_bit :
    decode .ext [0b00100100#8, 0x34#8] = .ok (.bitZp 0x34#8, []) ∧
    decode .ext [0b00101100#8, 0x34#8, 0x12#8] = .ok (.bitAbs 0x34#8 0x12#8, []) := by
  repeat' constructor

/-- Bytes outside the tables are rejected by name, in BASE the EXT ones too (rules R75, R140; vectors F1, F3). -/
theorem test_decode_rejects :
    decode .ext [0xFF#8] = .error (.unimplemented 0xFF#8) ∧ decode .ext [0xEA#8] = .error (.unimplemented 0xEA#8) ∧
    decode .base [0x69#8, 0x50#8] = .error (.unimplemented 0x69#8) ∧ decode .base [] = .error .noOpcode ∧
    decode .ext [0xAD#8, 0x00#8] = .error (.operandMissing 0xAD#8) := ⟨rfl, rfl, rfl, rfl, rfl⟩

/-- Operand bytes count on from bit 8 of a table word, low byte first; bits above are zero (rule R141). -/
theorem test_table_words :
    decodeTableWord 8 0xAD = some (.ldaAbs 0x00#8 0x00#8) ∧ decodeTableWord 24 0x1234AD = some (.ldaAbs 0x34#8 0x12#8) ∧
    decodeTableWord 16 0xC0A9 = some (.ldaImm 0xC0#8) ∧ decodeTableWord 8 0xFF = none := by decide

/-! ## One step -/

/-- A running machine with `bytes` at 0x8000, PC there, and `data` in memory below. -/
def start (a x y p : Byte) (bytes : List Byte) (data : Memory) : State where
  a := a
  x := x
  y := y
  sp := 0x00#8
  pc := 0x8000#16
  p := p
  mem := Memory.writeList data 0x8000 bytes
  run := .running
  err := none

/-- The same with PC and the bytes at another address. -/
def startAt (pc : Addr) (bytes : List Byte) : State :=
  (start 0x00#8 0x00#8 0x00#8 0x00#8 [] []).setPc pc |>.setMem (Memory.writeList [] pc.toNat bytes)

/-- A, X, P and PC after one step of the EXT machine. -/
def seen (s : State) : Option (Byte × Byte × Byte × Addr) :=
  match stepWith .ext s with
  | .next t => some (t.a, t.x, t.p, t.pc)
  | .fault _ => none
  | .refused _ => none

/-- P, PC and a byte of memory after one step of the EXT machine. -/
def stored (s : State) (addr : Nat) : Option (Byte × Addr × Option Byte) :=
  match stepWith .ext s with
  | .next t => some (t.p, t.pc, t.mem.find addr)
  | .fault _ => none
  | .refused _ => none

/-- RUN, ERR, PC, A and P after one step of a profile. -/
def ended (o : Opset) (s : State) : Option (RunState × Option Condition × Addr × Byte × Byte) :=
  match stepWith o s with
  | .next t => some (t.run, t.err, t.pc, t.a, t.p)
  | .fault _ => none
  | .refused _ => none

/-- Section 2.2: stale N cleared. -/
theorem test_ldaImm_zero :
    seen (start 0xC0#8 0x00#8 0x00#8 0x80#8 [0xA9#8, 0x00#8] []) =
      some (0x00#8, 0x00#8, 0x02#8, 0x8002#16) := by decide

/-- Section 2.2: C and V pass through. -/
theorem test_ldaImm_keeps_C_V :
    seen (start 0x10#8 0x00#8 0x00#8 0x41#8 [0xA9#8, 0x00#8] []) =
      some (0x00#8, 0x00#8, 0x43#8, 0x8002#16) := by decide

/-- Section 2.3: X replaced, stale N cleared. -/
theorem test_tax :
    seen (start 0x00#8 0x37#8 0x00#8 0x80#8 [0xAA#8] []) =
      some (0x00#8, 0x00#8, 0x02#8, 0x8001#16) := by decide

/-- Section 2.4: no carry at the wrap. -/
theorem test_inx_wraps :
    seen (start 0x11#8 0xFF#8 0x00#8 0x80#8 [0xE8#8] []) =
      some (0x11#8, 0x00#8, 0x02#8, 0x8001#16) := by decide

/-- Section 2.4: no overflow at 0x80. -/
theorem test_inx_to_80 :
    seen (start 0x00#8 0x7F#8 0x00#8 0x00#8 [0xE8#8] []) =
      some (0x00#8, 0x80#8, 0x80#8, 0x8001#16) := by decide

/-- Section 2.5: B set, PC past the one byte, Halted. -/
theorem test_brk :
    ended .base (start 0x00#8 0x00#8 0x00#8 0xC3#8 [0x00#8] []) =
      some (.halted, none, 0x8001#16, 0x00#8, 0xD3#8) := by decide

/-- Vector E1. -/
theorem test_ldaZp :
    seen (start 0x55#8 0x00#8 0x00#8 0x80#8 [0xA5#8, 0x10#8] [(0x0010, 0x00#8)]) =
      some (0x00#8, 0x00#8, 0x02#8, 0x8002#16) := by decide

/-- Vector E3: wraps in page zero. -/
theorem test_ldaZpX :
    seen (start 0x00#8 0x20#8 0x00#8 0x00#8 [0xB5#8, 0xF0#8] [(0x0010, 0x77#8)]) =
      some (0x77#8, 0x20#8, 0x00#8, 0x8002#16) := by decide

/-- Vector E2. -/
theorem test_ldaAbs :
    seen (start 0x00#8 0x00#8 0x00#8 0x02#8 [0xAD#8, 0x00#8, 0x03#8] [(0x0300, 0x7F#8)]) =
      some (0x7F#8, 0x00#8, 0x00#8, 0x8003#16) := by decide

/-- Section 2.10, abs,X: wraps at 16 bits. -/
theorem test_ldaAbsX :
    seen (start 0x00#8 0x20#8 0x00#8 0x00#8 [0xBD#8, 0xF0#8, 0xFF#8] [(0x0010, 0x77#8)]) =
      some (0x77#8, 0x20#8, 0x00#8, 0x8003#16) := by decide

/-- Section 2.10, abs,Y with Y = 1. -/
theorem test_ldaAbsY :
    seen (start 0x00#8 0x20#8 0x01#8 0x00#8 [0xB9#8, 0xFF#8, 0x02#8] [(0x0300, 0x80#8)]) =
      some (0x80#8, 0x20#8, 0x80#8, 0x8003#16) := by decide

/-- Vector E4. -/
theorem test_ldaIndX :
    seen (start 0x00#8 0x1E#8 0x00#8 0x00#8 [0xA1#8, 0x02#8] [(0x0020, 0x00#8), (0x0021, 0x03#8), (0x0300, 0x80#8)]) =
      some (0x80#8, 0x1E#8, 0x80#8, 0x8002#16) := by decide

/-- Section 2.10, (zp),Y with Y = 0x10. -/
theorem test_ldaIndY :
    seen (start 0x00#8 0x1E#8 0x10#8 0x00#8 [0xB1#8, 0x20#8] [(0x0020, 0xF8#8), (0x0021, 0x03#8), (0x0408, 0x42#8)]) =
      some (0x42#8, 0x1E#8, 0x00#8, 0x8002#16) := by decide

/-- Vector E5: no flag changes. -/
theorem test_staZp :
    stored (start 0xA0#8 0x00#8 0x00#8 0xC0#8 [0x85#8, 0x10#8] []) 0x0010 =
      some (0xC0#8, 0x8002#16, some 0xA0#8) := by decide

/-- Vector E8: Z is not set. -/
theorem test_staZp_zero :
    stored (start 0x00#8 0x00#8 0x00#8 0x80#8 [0x85#8, 0x10#8] [(0x0010, 0x55#8)]) 0x0010 =
      some (0x80#8, 0x8002#16, some 0x00#8) := by decide

/-- Vector E7. -/
theorem test_staZpX :
    stored (start 0x77#8 0x20#8 0x00#8 0x00#8 [0x95#8, 0xF0#8] []) 0x0010 =
      some (0x00#8, 0x8002#16, some 0x77#8) := by decide

/-- Vector E6: into the program area. -/
theorem test_staAbs :
    stored (start 0xE8#8 0x00#8 0x00#8 0x80#8 [0x8D#8, 0x06#8, 0x80#8] []) 0x8006 =
      some (0x80#8, 0x8003#16, some 0xE8#8) := by decide

/-- Section 2.10, abs,X. -/
theorem test_staAbsX :
    stored (start 0x42#8 0x1E#8 0x00#8 0x00#8 [0x9D#8, 0x00#8, 0x03#8] []) 0x031E =
      some (0x00#8, 0x8003#16, some 0x42#8) := by decide

/-- Section 2.10, abs,Y with Y = 1. -/
theorem test_staAbsY :
    stored (start 0x42#8 0x1E#8 0x01#8 0x00#8 [0x99#8, 0xFF#8, 0x02#8] []) 0x0300 =
      some (0x00#8, 0x8003#16, some 0x42#8) := by decide

/-- Section 2.10, (zp,X): the pointer wraps in page zero. -/
theorem test_staIndX :
    stored (start 0x42#8 0x00#8 0x00#8 0x00#8 [0x81#8, 0xFF#8] [(0x0000, 0x12#8), (0x00FF, 0x34#8)]) 0x1234 =
      some (0x00#8, 0x8002#16, some 0x42#8) := by decide

/-- Section 2.10, (zp),Y: the pointer wraps in page zero. -/
theorem test_staIndY :
    stored (start 0x42#8 0x05#8 0x00#8 0x00#8 [0x91#8, 0xFF#8] [(0x0000, 0x12#8), (0x00FF, 0x34#8)]) 0x1234 =
      some (0x00#8, 0x8002#16, some 0x42#8) := by decide

/-- Section 2.12: A = 50, M = 50, P = 00. -/
theorem test_adcImm :
    seen (start 0x50#8 0x00#8 0x00#8 0x00#8 [0x69#8, 0x50#8] []) =
      some (0xA0#8, 0x00#8, 0xC0#8, 0x8002#16) := by decide

/-- Section 2.12: A = D0, M = 90, P = 00. -/
theorem test_adcZp :
    seen (start 0xD0#8 0x00#8 0x00#8 0x00#8 [0x65#8, 0x10#8] [(0x0010, 0x90#8)]) =
      some (0x60#8, 0x00#8, 0x41#8, 0x8002#16) := by decide

/-- Section 2.12: A = FF, M = 01, P = 00. -/
theorem test_adcZpX :
    seen (start 0xFF#8 0x20#8 0x00#8 0x00#8 [0x75#8, 0xF0#8] [(0x0010, 0x01#8)]) =
      some (0x00#8, 0x20#8, 0x03#8, 0x8002#16) := by decide

/-- Section 2.12: A = 7F, M = 00, P = 01. -/
theorem test_adcAbs :
    seen (start 0x7F#8 0x00#8 0x00#8 0x01#8 [0x6D#8, 0x00#8, 0x03#8] [(0x0300, 0x00#8)]) =
      some (0x80#8, 0x00#8, 0xC0#8, 0x8003#16) := by decide

/-- Section 2.12: A = 80, M = 80, P = 00. -/
theorem test_adcAbsX :
    seen (start 0x80#8 0x1E#8 0x00#8 0x00#8 [0x7D#8, 0x00#8, 0x03#8] [(0x031E, 0x80#8)]) =
      some (0x00#8, 0x1E#8, 0x43#8, 0x8003#16) := by decide

/-- Section 2.12: A = 80, M = FF, P = 00. -/
theorem test_adcAbsY :
    seen (start 0x80#8 0x00#8 0x01#8 0x00#8 [0x79#8, 0xFF#8, 0x02#8] [(0x0300, 0xFF#8)]) =
      some (0x7F#8, 0x00#8, 0x41#8, 0x8003#16) := by decide

/-- Section 2.12: A = 3F, M = 40, P = 01. -/
theorem test_adcIndX :
    seen (start 0x3F#8 0x1E#8 0x00#8 0x01#8 [0x61#8, 0x02#8] [(0x0020, 0x00#8), (0x0021, 0x03#8), (0x0300, 0x40#8)]) =
      some (0x80#8, 0x1E#8, 0xC0#8, 0x8002#16) := by decide

/-- Section 2.12: A = F0, M = 20, P = 80. -/
theorem test_adcIndY :
    seen (start 0xF0#8 0x00#8 0x10#8 0x80#8 [0x71#8, 0x20#8] [(0x0020, 0xF8#8), (0x0021, 0x03#8), (0x0408, 0x20#8)]) =
      some (0x10#8, 0x00#8, 0x01#8, 0x8002#16) := by decide

/-- Section 2.12: A = 50, M = F0, P = 01. -/
theorem test_sbcImm :
    seen (start 0x50#8 0x00#8 0x00#8 0x01#8 [0xE9#8, 0xF0#8] []) =
      some (0x60#8, 0x00#8, 0x00#8, 0x8002#16) := by decide

/-- Section 2.12: A = 50, M = B0, P = 01. -/
theorem test_sbcZp :
    seen (start 0x50#8 0x00#8 0x00#8 0x01#8 [0xE5#8, 0x10#8] [(0x0010, 0xB0#8)]) =
      some (0xA0#8, 0x00#8, 0xC0#8, 0x8002#16) := by decide

/-- Section 2.12: A = 00, M = 01, P = 01. -/
theorem test_sbcZpX :
    seen (start 0x00#8 0x20#8 0x00#8 0x01#8 [0xF5#8, 0xF0#8] [(0x0010, 0x01#8)]) =
      some (0xFF#8, 0x20#8, 0x80#8, 0x8002#16) := by decide

/-- Section 2.12: A = 80, M = 01, P = 01. -/
theorem test_sbcAbs :
    seen (start 0x80#8 0x00#8 0x00#8 0x01#8 [0xED#8, 0x00#8, 0x03#8] [(0x0300, 0x01#8)]) =
      some (0x7F#8, 0x00#8, 0x41#8, 0x8003#16) := by decide

/-- Section 2.12: A = 40, M = 40, P = 01. -/
theorem test_sbcAbsX :
    seen (start 0x40#8 0x1E#8 0x00#8 0x01#8 [0xFD#8, 0x00#8, 0x03#8] [(0x031E, 0x40#8)]) =
      some (0x00#8, 0x1E#8, 0x03#8, 0x8003#16) := by decide

/-- Section 2.12: A = 00, M = 00, P = 00. -/
theorem test_sbcAbsY :
    seen (start 0x00#8 0x00#8 0x01#8 0x00#8 [0xF9#8, 0xFF#8, 0x02#8] [(0x0300, 0x00#8)]) =
      some (0xFF#8, 0x00#8, 0x80#8, 0x8003#16) := by decide

/-- Section 2.12: A = 7F, M = FF, P = 01. -/
theorem test_sbcIndX :
    seen (start 0x7F#8 0x1E#8 0x00#8 0x01#8 [0xE1#8, 0x02#8] [(0x0020, 0x00#8), (0x0021, 0x03#8), (0x0300, 0xFF#8)]) =
      some (0x80#8, 0x1E#8, 0xC0#8, 0x8002#16) := by decide

/-- Section 2.12: A = D0, M = 70, P = 01. -/
theorem test_sbcIndY :
    seen (start 0xD0#8 0x00#8 0x10#8 0x01#8 [0xF1#8, 0x20#8] [(0x0020, 0xF8#8), (0x0021, 0x03#8), (0x0408, 0x70#8)]) =
      some (0x60#8, 0x00#8, 0x41#8, 0x8002#16) := by decide

/-- Section 2.12, decision D24: P.D plays no part, 09 + 01 is 0A. -/
theorem test_adc_ignores_decimal :
    seen (start 0x09#8 0x00#8 0x00#8 0x08#8 [0x69#8, 0x01#8] []) =
      some (0x0A#8, 0x00#8, 0x08#8, 0x8002#16) := by decide

/-- Section 2.13: V passes through, stale N cleared. -/
theorem test_aslAcc :
    seen (start 0xA0#8 0x00#8 0x00#8 0xC0#8 [0x0A#8] []) =
      some (0x40#8, 0x00#8, 0x41#8, 0x8001#16) := by decide

/-- Section 2.13: value 80. -/
theorem test_aslZp :
    stored (start 0x33#8 0x00#8 0x00#8 0x81#8 [0x06#8, 0x10#8] [(0x0010, 0x80#8)]) 0x0010 =
      some (0x03#8, 0x8002#16, some 0x00#8) := by decide

/-- Section 2.13: the old carry is not shifted in. -/
theorem test_aslZpX :
    stored (start 0x33#8 0x20#8 0x00#8 0x01#8 [0x16#8, 0xF0#8] [(0x0010, 0x55#8)]) 0x0010 =
      some (0x80#8, 0x8002#16, some 0xAA#8) := by decide

/-- Section 2.13: value FF. -/
theorem test_aslAbs :
    stored (start 0x33#8 0x00#8 0x00#8 0x00#8 [0x0E#8, 0x00#8, 0x03#8] [(0x0300, 0xFF#8)]) 0x0300 =
      some (0x81#8, 0x8003#16, some 0xFE#8) := by decide

/-- Section 2.13: value 40. -/
theorem test_aslAbsX :
    stored (start 0x33#8 0x1E#8 0x00#8 0x00#8 [0x1E#8, 0x00#8, 0x03#8] [(0x031E, 0x40#8)]) 0x031E =
      some (0x80#8, 0x8003#16, some 0x80#8) := by decide

/-- Section 2.13: V passes through. -/
theorem test_lsrAcc :
    seen (start 0x01#8 0x00#8 0x00#8 0x41#8 [0x4A#8] []) =
      some (0x00#8, 0x00#8, 0x43#8, 0x8001#16) := by decide

/-- Section 2.13: the memory form example. -/
theorem test_lsrZp :
    stored (start 0x80#8 0x1E#8 0x00#8 0xC0#8 [0x46#8, 0x20#8] [(0x0020, 0x00#8), (0x0021, 0x03#8)]) 0x0020 =
      some (0x42#8, 0x8002#16, some 0x00#8) := by decide

/-- Section 2.13: N always cleared. -/
theorem test_lsrZpX :
    stored (start 0x33#8 0x20#8 0x00#8 0x80#8 [0x56#8, 0xF0#8] [(0x0010, 0x80#8)]) 0x0010 =
      some (0x00#8, 0x8002#16, some 0x40#8) := by decide

/-- Section 2.13: value 03. -/
theorem test_lsrAbs :
    stored (start 0x33#8 0x00#8 0x00#8 0x00#8 [0x4E#8, 0x00#8, 0x03#8] [(0x0300, 0x03#8)]) 0x0300 =
      some (0x01#8, 0x8003#16, some 0x01#8) := by decide

/-- Section 2.13: value FF. -/
theorem test_lsrAbsX :
    stored (start 0x33#8 0x1E#8 0x00#8 0x00#8 [0x5E#8, 0x00#8, 0x03#8] [(0x031E, 0xFF#8)]) 0x031E =
      some (0x01#8, 0x8003#16, some 0x7F#8) := by decide

/-- Section 2.13: N and Z together. -/
theorem test_bitZp :
    seen (start 0x0F#8 0x00#8 0x00#8 0x00#8 [0x24#8, 0x10#8] [(0x0010, 0xF0#8)]) =
      some (0x0F#8, 0x00#8, 0xC2#8, 0x8002#16) := by decide

/-- Section 2.13: C passes through. -/
theorem test_bitAbs :
    seen (start 0x00#8 0x00#8 0x00#8 0x01#8 [0x2C#8, 0x00#8, 0x03#8] [(0x0300, 0xFF#8)]) =
      some (0x00#8, 0x00#8, 0xC3#8, 0x8003#16) := by decide

/-! ## Error conditions, commands, memory -/

/-- Vector F1, P4: the byte and its address; PC past it. -/
theorem test_unimplemented :
    ended .base (startAt 0x8000#16 [0xFF#8]) =
      some (.faulted, some (.unimplementedOpcode 0xFF#8 0x8000#16), 0x8001#16, 0x00#8, 0x00#8) := by decide

/-- Program P5 under BASE: an EXT opcode is unimplemented there. -/
theorem test_ext_opcode_in_base :
    ended .base (startAt 0x8002#16 [0x69#8, 0x50#8]) =
      some (.faulted, some (.unimplementedOpcode 0x69#8 0x8002#16), 0x8003#16, 0x00#8, 0x00#8) := by decide

/-- Vectors F4 and F5: the opcode fetch at 0xFFFF overruns whatever the byte is. -/
theorem test_overrun_at_opcode :
    ended .ext (startAt 0xFFFF#16 [0x00#8]) =
      some (.faulted, some (.addressOverrun 0x10000), 0xFFFF#16, 0x00#8, 0x00#8) ∧
    ended .ext (startAt 0xFFFF#16 [0xFF#8]) =
      some (.faulted, some (.addressOverrun 0x10000), 0xFFFF#16, 0x00#8, 0x00#8) := by decide

/-- Vector F6: the operand fetch overruns and A keeps its value. -/
theorem test_overrun_at_operand :
    ended .base (startAt 0xFFFE#16 [0xA9#8, 0x07#8]) =
      some (.faulted, some (.addressOverrun 0x10000), 0xFFFF#16, 0x00#8, 0x00#8) := by decide

/-- Vectors F7 and F8: at 0xFFFE a byte without an entry is unimplemented, and a BRK halts. -/
theorem test_highest_opcode_address :
    ended .base (startAt 0xFFFE#16 [0xFF#8, 0x00#8]) =
      some (.faulted, some (.unimplementedOpcode 0xFF#8 0xFFFE#16), 0xFFFF#16, 0x00#8, 0x00#8) ∧
    ended .base (startAt 0xFFFE#16 [0x00#8, 0x00#8]) = some (.halted, none, 0xFFFF#16, 0x00#8, 0x10#8) := by decide

/-- Vector L2: the byte at 0x8000, PC there, still Reset. -/
theorem test_load :
    load [0x00#8] construct = .next ((construct.setMem [(0x8000, 0x00#8)]).setPc 0x8000#16, .loaded) := rfl

/-- Vector L4: 32769 bytes return LoadOverflow, and nothing at all changed. -/
theorem test_load_overflow :
    load (List.replicate 0x8001 0xE8#8) construct = .next (construct, .error (some (.loadOverflow 0x8000#16 32769))) := by
  rw [load_overflows rfl (by rw [List.length_replicate]; decide), List.length_replicate]
  rfl

/-- Vectors M2 to M4: a little-endian word store, and a word read across a page. -/
theorem test_words :
    (∃ t, (startAt 0x8000#16 []).writeWord 0x0300#16 0xBEEF#16 = .next t ∧ t.mem = [(0x300, 0xEF#8), (0x301, 0xBE#8)]) ∧
    (startAt 0x00FF#16 [0x34#8, 0x12#8]).readWord 0x00FF#16 = .next 0x1234#16 := ⟨⟨_, rfl, rfl⟩, rfl⟩

/-- Vector P6 step 10: the accesses of `ADC ($02,X)` in order. -/
theorem test_accesses_adcIndX :
    stepAccesses .ext (start 0x01#8 0x1E#8 0x00#8 0x00#8 [0x61#8, 0x02#8] [(0x20, 0x00#8), (0x21, 0x03#8), (0x300, 0x7F#8)]) =
      [.read 0x8000#16, .read 0x8001#16, .read 0x0020#16, .read 0x0021#16, .read 0x0300#16] := by decide

/-- Vector P6 step 11: LSR reads the byte, then writes it. -/
theorem test_accesses_lsrZp :
    stepAccesses .ext (start 0x80#8 0x1E#8 0x00#8 0xC0#8 [0x46#8, 0x20#8] [(0x20, 0x00#8)]) =
      [.read 0x8000#16, .read 0x8001#16, .read 0x0020#16, .write 0x0020#16 0x00#8] := by decide

/-- Vector F6: the operand byte at 0xFFFF is read before the advance fails. -/
theorem test_accesses_overrun :
    stepAccesses .base (startAt 0xFFFE#16 [0xA9#8, 0x07#8]) = [.read 0xFFFE#16, .read 0xFFFF#16] := by decide

/-- A table word placed at PC is what the next step from reset runs. -/
theorem test_withFetchWord :
    seen (State.reset.withFetchWord 16 0xC0A9) = some (0xC0#8, 0x00#8, 0x80#8, 0x0002#16) ∧
    seen (State.reset.withFetchWord 8 0xE8) = some (0x00#8, 0x01#8, 0x00#8, 0x0001#16) := by decide

/-! ## Witnesses: what meets the hypotheses of each statement that has some -/

/-- A halted machine, and a faulted one. -/
def haltedState : State := (start 0xC0#8 0xC1#8 0x00#8 0x90#8 [0x00#8] []).setRun .halted

/-- See above. -/
def faultedState : State := (start 0x05#8 0x00#8 0x00#8 0x00#8 [0xFF#8] []).raise (.unimplementedOpcode 0xFF#8 0x8000#16)

theorem witness_DecodeOfEncode :
    (Instr.ldaImm 0xC0#8).wellFormed .base = true ∧ (Instr.bitAbs 0x00#8 0x03#8).wellFormed .ext = true := by decide

theorem witness_EncodeOfDecode :
    decode .base [0xA9#8, 0xC0#8, 0xAA#8] = .ok (.ldaImm 0xC0#8, [0xAA#8]) ∧
    decode .ext [0x8D#8, 0x06#8, 0x80#8] = .ok (.staAbs 0x06#8 0x80#8, []) := ⟨rfl, rfl⟩

theorem witness_DispatchHasExactlyTheTable : ∃ e, dispatch .base 0xA9#8 = some e := ⟨_, rfl⟩

theorem witness_EffectiveAddressesWrap : (0x02 : Nat) = ((0xE4#8).toNat + (0x1E#8).toNat) % 256 := by decide

theorem witness_OnlyBrkHalts : (start 0x00#8 0x00#8 0x00#8 0x00#8 [] []).run = .running := rfl

theorem witness_StepRunsTheDecodedInstruction :
    live (startAt 0xFFFC#16 [0xAD#8, 0x00#8, 0x03#8]) ∧
    decode .ext (bytesAtPc (startAt 0xFFFC#16 [0xAD#8, 0x00#8, 0x03#8])) = .ok (.ldaAbs 0x00#8 0x03#8, []) ∧
    (Instr.ldaAbs 0x00#8 0x03#8).wellFormed .ext = true ∧
    (startAt 0xFFFC#16 [0xAD#8, 0x00#8, 0x03#8]).pc.toNat + (Instr.ldaAbs 0x00#8 0x03#8).length ≤ 0xFFFF :=
  ⟨.inr rfl, rfl, rfl, by decide⟩

/-- The highest place where LDA immediate completes. -/
theorem witness_StepOfLdaImmediate_completes :
    live (startAt 0xFFFD#16 [0xA9#8, 0x07#8]) ∧
    (startAt 0xFFFD#16 [0xA9#8, 0x07#8]).readByte (startAt 0xFFFD#16 [0xA9#8, 0x07#8]).pc = 0xA9#8 ∧
    (startAt 0xFFFD#16 [0xA9#8, 0x07#8]).pc.toNat < 0xFFFE := ⟨.inr rfl, rfl, by decide⟩

/-- The two places where it overruns. -/
theorem witness_StepOfLdaImmediate_overruns :
    (live (startAt 0xFFFE#16 [0xA9#8]) ∧ (startAt 0xFFFE#16 [0xA9#8]).readByte 0xFFFE#16 = 0xA9#8 ∧
      0xFFFE ≤ (startAt 0xFFFE#16 [0xA9#8]).pc.toNat) ∧
    (live (startAt 0xFFFF#16 [0xA9#8]) ∧ (startAt 0xFFFF#16 [0xA9#8]).readByte 0xFFFF#16 = 0xA9#8 ∧
      0xFFFE ≤ (startAt 0xFFFF#16 [0xA9#8]).pc.toNat) := ⟨⟨.inr rfl, rfl, by decide⟩, .inr rfl, rfl, by decide⟩

theorem witness_StepOfTax :
    (live (startAt 0xFFFE#16 [0xAA#8]) ∧ (startAt 0xFFFE#16 [0xAA#8]).readByte 0xFFFE#16 = 0xAA#8 ∧
      (startAt 0xFFFE#16 [0xAA#8]).pc.toNat < 0xFFFF) ∧
    (live (startAt 0xFFFF#16 [0xAA#8]) ∧ (startAt 0xFFFF#16 [0xAA#8]).readByte 0xFFFF#16 = 0xAA#8 ∧
      (startAt 0xFFFF#16 [0xAA#8]).pc.toNat = 0xFFFF) := ⟨⟨.inr rfl, rfl, by decide⟩, .inr rfl, rfl, by decide⟩

theorem witness_StepOfInx :
    (live (startAt 0xFFFE#16 [0xE8#8]) ∧ (startAt 0xFFFE#16 [0xE8#8]).readByte 0xFFFE#16 = 0xE8#8 ∧
      (startAt 0xFFFE#16 [0xE8#8]).pc.toNat < 0xFFFF) ∧
    (live (startAt 0xFFFF#16 [0xE8#8]) ∧ (startAt 0xFFFF#16 [0xE8#8]).readByte 0xFFFF#16 = 0xE8#8 ∧
      (startAt 0xFFFF#16 [0xE8#8]).pc.toNat = 0xFFFF) := ⟨⟨.inr rfl, rfl, by decide⟩, .inr rfl, rfl, by decide⟩

theorem witness_StepOfBrk :
    (live (startAt 0xFFFE#16 [0x00#8]) ∧ (startAt 0xFFFE#16 [0x00#8]).readByte 0xFFFE#16 = 0x00#8 ∧
      (startAt 0xFFFE#16 [0x00#8]).pc.toNat < 0xFFFF) ∧
    (live (startAt 0xFFFF#16 [0x00#8]) ∧ (startAt 0xFFFF#16 [0x00#8]).readByte 0xFFFF#16 = 0x00#8 ∧
      (startAt 0xFFFF#16 [0x00#8]).pc.toNat = 0xFFFF) := ⟨⟨.inr rfl, rfl, by decide⟩, .inr rfl, rfl, by decide⟩

/-- The opcode fetch at 0xFFFF, a byte without an entry at 0xFFFE, an operand at 0xFFFF and one past it. -/
theorem witness_FaultingStepLeavesTheRest :
    (live (startAt 0xFFFF#16 []) ∧ (startAt 0xFFFF#16 []).pc.toNat = 0xFFFF) ∧
    (live (startAt 0xFFFE#16 [0xFF#8]) ∧ (startAt 0xFFFE#16 [0xFF#8]).pc.toNat < 0xFFFF ∧
      dispatch .ext ((startAt 0xFFFE#16 [0xFF#8]).readByte 0xFFFE#16) = none) ∧
    (live (startAt 0xFFFE#16 [0xA9#8]) ∧ (startAt 0xFFFE#16 [0xA9#8]).pc.toNat < 0xFFFF ∧
      dispatch .base ((startAt 0xFFFE#16 [0xA9#8]).readByte 0xFFFE#16) = some (.imm .ldaImm) ∧
      0xFFFF < (startAt 0xFFFE#16 [0xA9#8]).pc.toNat + 1 + operandCount (.imm .ldaImm)) ∧
    (live (startAt 0xFFFD#16 [0xAD#8]) ∧ (startAt 0xFFFD#16 [0xAD#8]).pc.toNat < 0xFFFF ∧
      dispatch .ext ((startAt 0xFFFD#16 [0xAD#8]).readByte 0xFFFD#16) = some (.abs .ldaAbs) ∧
      0xFFFF < (startAt 0xFFFD#16 [0xAD#8]).pc.toNat + 1 + operandCount (.abs .ldaAbs)) :=
  ⟨⟨.inr rfl, rfl⟩, ⟨.inr rfl, by decide, rfl⟩, ⟨.inr rfl, by decide, rfl, by decide⟩, .inr rfl, by decide, rfl, by decide⟩

theorem witness_TerminalStatesNeverChange : haltedState.run = .halted ∧ faultedState.run = .faulted := ⟨rfl, rfl⟩

theorem witness_StepHaltsExactlyOnBrk : live construct ∧ live (startAt 0xFFFE#16 [0x00#8]) := ⟨.inl rfl, .inr rfl⟩

/-- Live, and the step does not fault: the longest instruction, and in BASE the longest one. -/
theorem witness_StepMovesPcForward :
    (live (startAt 0x8000#16 [0xAD#8, 0x00#8, 0x80#8]) ∧
      (∃ t, stepWith .ext (startAt 0x8000#16 [0xAD#8, 0x00#8, 0x80#8]) = .next t ∧ t.run ≠ .faulted)) ∧
    (live (startAt 0x8000#16 [0xA9#8, 0x00#8]) ∧
      (∃ t, stepWith .base (startAt 0x8000#16 [0xA9#8, 0x00#8]) = .next t ∧ t.run ≠ .faulted)) :=
  ⟨⟨.inr rfl, _, rfl, nofun⟩, .inr rfl, _, rfl, nofun⟩

theorem witness_ProfilesAgreeOnBaseOpcodes :
    (startAt 0x8000#16 [0xE8#8]).readByte (startAt 0x8000#16 [0xE8#8]).pc ∈ baseOpcodes := by decide

/-- A run that ends in Halted and one that ends in Faulted. -/
theorem witness_EveryRunEnds : endedWell haltedState ∧ wentWrong faultedState := ⟨rfl, rfl⟩

/-- One step to Halted, and none. -/
theorem witness_RunIsTheSequenceOfItsSteps :
    (∃ t, stepsWith .base 1 (startAt 0x8000#16 [0x00#8]) = some t ∧ (endedWell t ∨ wentWrong t) ∧
      ∀ k, k < 1 → ∃ u, stepsWith .base k (startAt 0x8000#16 [0x00#8]) = some u ∧ live u) ∧
    (∃ t, stepsWith .base 0 faultedState = some t ∧ (endedWell t ∨ wentWrong t) ∧
      ∀ k, k < 0 → ∃ u, stepsWith .base k faultedState = some u ∧ live u) :=
  ⟨⟨_, rfl, .inl rfl, fun k hk => match k, hk with | 0, _ => ⟨_, rfl, .inr rfl⟩⟩, _, rfl, .inr rfl, nofun⟩

/-- Program P1: three instructions and the BRK. -/
theorem witness_BaseSequenceHaltsAtItsBrk :
    live (startAt 0x8000#16 [0xA9#8, 0xC0#8, 0xAA#8, 0xE8#8, 0x00#8]) ∧
    (∀ i ∈ [Instr.ldaImm 0xC0#8, .tax, .inx], i.wellFormed .base = true ∧ i ≠ .brk) ∧
    (0x8000#16).toNat + ([Instr.ldaImm 0xC0#8, .tax, .inx].flatMap encode).length < 0xFFFF ∧
    holdsBytes (startAt 0x8000#16 [0xA9#8, 0xC0#8, 0xAA#8, 0xE8#8, 0x00#8]) 0x8000#16
      ([Instr.ldaImm 0xC0#8, .tax, .inx].flatMap encode ++ encode .brk) := by
  refine ⟨.inr rfl, by decide, by decide, fun k b h => ?_⟩
  match k, h with
  | 0, rfl => rfl
  | 1, rfl => rfl
  | 2, rfl => rfl
  | 3, rfl => rfl
  | 4, rfl => rfl

/-- A live state with data in it, and the state construction gives, meet the invariants. -/
theorem witness_invariants :
    (start 0xC0#8 0x1E#8 0x00#8 0xC3#8 [0xE8#8] [(0x10, 0x55#8)]).Inv ∧
    (start 0xC0#8 0x1E#8 0x00#8 0x80#8 [0xE8#8] [(0x10, 0x55#8)]).BaseInv := by
  refine ⟨⟨by decide, rfl, rfl, by decide, by decide, by decide, by decide, by decide, nofun, nofun⟩,
    ⟨⟨by decide, rfl, rfl, by decide, by decide, by decide, by decide, by decide, nofun, nofun⟩, ?_, ?_, ?_⟩⟩ <;> decide

theorem witness_StepKeepsTheInvariant :
    (start 0xC0#8 0x1E#8 0x00#8 0xC3#8 [0xE8#8] [(0x10, 0x55#8)]).Inv ∧
    (∃ t, step (start 0xC0#8 0x1E#8 0x00#8 0xC3#8 [0xE8#8] [(0x10, 0x55#8)]) = .next t) ∧
    (∃ t, stepWith .base (start 0xC0#8 0x1E#8 0x00#8 0xC3#8 [0xE8#8] [(0x10, 0x55#8)]) = .next t) :=
  ⟨witness_invariants.1, ⟨_, rfl⟩, _, rfl⟩

theorem witness_BaseStepKeepsItsInvariant :
    (start 0xC0#8 0x1E#8 0x00#8 0x80#8 [0xE8#8] [(0x10, 0x55#8)]).BaseInv ∧
    (∃ t, stepWith .base (start 0xC0#8 0x1E#8 0x00#8 0x80#8 [0xE8#8] [(0x10, 0x55#8)]) = .next t) :=
  ⟨witness_invariants.2, _, rfl⟩

/-- A machine not stepped yet, with a byte in memory. -/
def unstepped : State := construct.setMem [(0x10, 0x55#8)]

theorem unstepped_baseInv : unstepped.BaseInv := by
  refine ⟨⟨by decide, rfl, rfl, by decide, by decide, by decide, by decide, by decide, nofun,
    fun _ => ⟨rfl, rfl, rfl, .inl rfl⟩⟩, ?_, ?_, ?_⟩ <;> decide

theorem witness_LoadKeepsTheInvariant :
    (∃ t r, load [0xA9#8, 0xC0#8, 0x00#8] unstepped = .next (t, r)) ∧ unstepped.Inv ∧ unstepped.BaseInv :=
  ⟨⟨_, _, rfl⟩, unstepped_baseInv.toInv, unstepped_baseInv⟩

/-- Construct, load, step: a reachable state of each profile that is none of the first two. -/
theorem witness_ReachableStatesMeetTheInvariant (o : Opset) : ∃ t, Reachable o t ∧ t.run = .halted := by
  cases o <;> exact ⟨_, .stepped _ _ (.loaded [0x00#8] _ _ _ .constructed rfl) rfl, rfl⟩

theorem witness_WordAccessIsLittleEndian : (0xFFFE#16).toNat < 0xFFFF ∧ (0xFFFF#16).toNat = 0xFFFF := by decide

/-- The longest program that fits, one byte more, and a state that is not Reset; and both sides of a loaded program. -/
theorem witness_LoadInstallsTheProgram :
    (construct.run = .reset ∧ (List.replicate 0x8000 0xE8#8).length ≤ 0x8000) ∧
    (construct.run = .reset ∧ 0x8000 < (List.replicate 0x8001 0xE8#8).length) ∧ haltedState.run ≠ .reset ∧
    ([0xE8#8, 0x00#8][1]? = some 0x00#8) ∧ (0x7FFF#16).toNat < 0x8000 ∧ 0x8000 + [0xE8#8, 0x00#8].length ≤ (0x8002#16).toNat := by
  refine ⟨⟨rfl, ?_⟩, ⟨rfl, ?_⟩, nofun, rfl, by decide, by decide⟩ <;> rw [List.length_replicate]; decide

theorem witness_FetchSeesTheStoredByte :
    effectiveAddress (start 0xE8#8 0x00#8 0x00#8 0x80#8 [] []) (.abs 0x06#8 0x80#8) ≠ 0xFFFF#16 ∧
    effectiveAddress construct (.abs 0xFE#8 0xFF#8) ≠ 0xFFFF#16 := by decide

/-- Each case of the result of a step occurs. -/
theorem witness_StepReturnsWhetherHalted :
    (∃ t, stepWith .base (startAt 0x8000#16 [0x00#8]) = .next t ∧ t.run = .halted) ∧
    (∃ t, stepWith .base (startAt 0x8000#16 [0xE8#8]) = .next t ∧ t.run = .running) ∧
    (∃ t, stepWith .base (startAt 0x8000#16 [0xFF#8]) = .next t ∧ t.run = .faulted) :=
  ⟨⟨_, rfl, rfl⟩, ⟨_, rfl, rfl⟩, _, rfl, rfl⟩

theorem witness_LoadAndRunIsTheComposition :
    (∃ t, load [0x00#8] construct = .next (t, .loaded)) ∧
    (∃ t e, load (List.replicate 0x8001 0xE8#8) construct = .next (t, .error e)) ∧ haltedState.run ≠ .reset :=
  ⟨⟨_, rfl⟩, ⟨_, _, test_load_overflow⟩, nofun⟩

/-- A memory that differs from the state's only at a byte the step does not read. -/
theorem witness_StepReadsOnlyItsAccesses :
    ∀ addr, reads (stepAccesses .ext (start 0x00#8 0x00#8 0x00#8 0x00#8 [0xA5#8, 0x10#8] [(0x10, 0x55#8)])) addr →
      ((start 0x00#8 0x00#8 0x00#8 0x00#8 [0xA5#8, 0x10#8] [(0x10, 0x55#8)]).setMem
          [(0x10, 0x55#8), (0x20, 0x77#8), (0x8000, 0xA5#8), (0x8001, 0x10#8)]).readByte addr =
        (start 0x00#8 0x00#8 0x00#8 0x00#8 [0xA5#8, 0x10#8] [(0x10, 0x55#8)]).readByte addr := by
  intro addr h
  have hl : stepAccesses .ext (start 0x00#8 0x00#8 0x00#8 0x00#8 [0xA5#8, 0x10#8] [(0x10, 0x55#8)]) =
      [.read 0x8000#16, .read 0x8001#16, .read 0x0010#16] := by decide
  rw [hl] at h
  simp only [reads, List.mem_cons, Access.read.injEq, List.not_mem_nil, or_false] at h
  rcases h with rfl | rfl | rfl <;> rfl

/-- LDA at the last address with two reads, at 0xFFFF, and another opcode. -/
theorem witness_BaseAccessOrder :
    live (startAt 0xFFFE#16 [0xA9#8]) ∧ live (startAt 0xFFFF#16 [0xA9#8]) ∧ live (startAt 0x8000#16 [0xE8#8]) :=
  ⟨.inr rfl, .inr rfl, .inr rfl⟩

end Sys2Proof.Tests
end

section
/-! PROOFS. The flag invariant of the BASE machine (10_state.md rule R28). Its one idea: an instruction that leaves P as
`SetZN` of a byte leaves Z and N those of the byte and keeps the other six flags. -/

namespace Sys2Proof.Proofs

open Sys2Proof.Machine Sys2Proof.Claims

/-- Zero after `SetZN`, as a statement about the number (rule R97). -/
theorem flag_z_setZN (p r : Byte) : flag .z (setZN p r) = decide (r.toNat = 0) := by
  simp [← BitVec.toNat_inj]

/-- Negative after `SetZN`, as a statement about the number (rule R97). -/
theorem flag_n_setZN (p r : Byte) : flag .n (setZN p r) = decide (0x80 ≤ r.toNat) := by
  rw [flag_setZN, if_neg nofun, if_pos rfl]
  exact r.msb_eq_getLsbD_last.symm.trans r.msb_eq_decide

theorem flagsOf_of_p_eq_setZN {r : Byte} {s t : State} (h : t.p = setZN s.p r) : flagsOf r [] s t := by
  rw [flagsOf, h]
  refine ⟨flag_z_setZN _ _, flag_n_setZN _ _, fun f hf => ?_⟩
  obtain ⟨hz, hn⟩ : f ≠ .z ∧ f ≠ .n := by simpa using hf
  rw [h, flag_setZN, if_neg hz, if_neg hn]

theorem keepsFlagsBut_of_p_eq_or_break {s t : State} (h : t.p = s.p ||| Flag.b.mask) : keepsFlagsBut [.b] s t := by
  intro f hf
  rw [h, flag_or_break, if_neg (List.mem_singleton.not.1 hf)]

/-- Settles O8: LDA immediate, TAX and INX leave P as `SetZN` of their result, BRK only sets Break in it. -/
theorem baseFlagsAreOfTheResult : Obligations.BaseFlagsAreOfTheResult := by
  intro s
  refine ⟨fun v => ⟨_, rfl, ?lda⟩, ⟨_, rfl, ?tax⟩, ⟨_, rfl, ?inx⟩, ⟨_, rfl, ?brk⟩⟩
  case lda => exact flagsOf_of_p_eq_setZN rfl
  case tax => exact flagsOf_of_p_eq_setZN rfl
  case inx => exact flagsOf_of_p_eq_setZN rfl
  case brk => exact keepsFlagsBut_of_p_eq_or_break rfl

end Sys2Proof.Proofs
end

section
/-! PROOFS. The byte write of the memory component (20_memory.md rule R43), by the law of a read after a write. -/

namespace Sys2Proof.Proofs

open Sys2Proof.Machine Sys2Proof.Claims

@[simp] theorem readByte_writeByte_self (s : State) (addr : Addr) (v : Byte) :
    (s.writeByte addr v).readByte addr = v := by
  rw [readByte_writeByte, if_pos rfl]

theorem keepsMemoryBut_writeByte (s : State) (addr : Addr) (v : Byte) :
    keepsMemoryBut addr s (s.writeByte addr v) := by
  intro b hb
  rw [readByte_writeByte, if_neg hb]

/-- Settles O42: a read after the write sees the value at its address and the old byte at any other. -/
theorem writeByteStoresOneByte : Obligations.WriteByteStoresOneByte := fun s addr v =>
  ⟨readByte_writeByte_self s addr v, keepsMemoryBut_writeByte s addr v⟩

end Sys2Proof.Proofs
end

section
/-! PROOFS. The worked encodings of rule R81 (30_encoding.md). Their one idea: the profile EXT only appends rows to the
BASE table, so a BASE instruction has the same row, and decodes the same, in either profile. -/

namespace Sys2Proof.Proofs

open Sys2Proof.Claims

/-- Every profile's dispatch table begins with the BASE table (rule R140). -/
theorem dispatch_of_dispatch_base (o : Opset) {op : Byte} {e : Entry} (h : dispatch .base op = some e) :
    dispatch o op = some e := by
  cases o with
  | base => exact h
  | ext =>
    obtain ⟨r, hr, he⟩ := Option.map_eq_some_iff.1 h
    have hext : (dispatchTable .ext).find? (fun r => r.opcode == op) = some r :=
      List.find?_append.trans (congrArg (Option.or · _) hr)
    exact Option.map_eq_some_iff.2 ⟨r, hext, he⟩

theorem decode_of_dispatch_base {o : Opset} {op : Byte} {e : Entry} {bytes : List Byte} {r : Instr × List Byte}
    (hd : dispatch .base op = some e) (ha : e.assemble bytes = some r) : decode o (op :: bytes) = .ok r := by
  simp only [decode, dispatch_of_dispatch_base o hd, ha]

/-- The BASE half of the decoder's round trip, in either profile (rules R70 to R74). -/
theorem decode_encode_of_isBase (o : Opset) (rest : List Byte) : ∀ i : Instr, i.isBase = true →
    decode o (encode i ++ rest) = .ok (i, rest)
  | .brk, _ => decode_of_dispatch_base rfl rfl
  | .ldaImm _, _ => decode_of_dispatch_base rfl rfl
  | .tax, _ => decode_of_dispatch_base rfl rfl
  | .inx, _ => decode_of_dispatch_base rfl rfl

/-- Settles O3: the encodings by definition, the composite program by the round trip of one instruction after the other. -/
theorem baseWorkedEncodings : Obligations.BaseWorkedEncodings := by
  intro o
  refine ⟨rfl, fun _ => rfl, rfl, rfl, ?lda, ?tax, ?inx, ?brk⟩
  case lda => exact decode_encode_of_isBase o [0xAA#8, 0xE8#8, 0x00#8] (.ldaImm 0xC0#8) rfl
  case tax => exact decode_encode_of_isBase o [0xE8#8, 0x00#8] .tax rfl
  case inx => exact decode_encode_of_isBase o [0x00#8] .inx rfl
  case brk => exact decode_encode_of_isBase o [] .brk rfl

end Sys2Proof.Proofs
end

section
/-! PROOFS. `SetZN` on the packed status byte (40_execution_cycle.md rule R97), flag by flag. -/

namespace Sys2Proof.Proofs

open Sys2Proof.Machine Sys2Proof.Claims

/-- The six flags `SetZN` does not own (rule R97). -/
theorem flag_setZN_of_ne {f : Flag} (p r : Byte) (hz : f ≠ .z) (hn : f ≠ .n) : flag f (setZN p r) = flag f p := by
  rw [flag_setZN, if_neg hz, if_neg hn]

/-- Settles O6: the flags by the laws of `SetZN`, the packed form by its definition, and the status byte each of the three
instructions leaves is `SetZN` of the byte it has just written. -/
theorem setZNWritesZeroAndNegative : Obligations.SetZNWritesZeroAndNegative := by
  refine ⟨fun p r => ⟨flag_z_setZN p r, flag_n_setZN p r, fun f => flag_setZN_of_ne p r, ?packed⟩,
    fun s => ⟨fun v => ⟨_, rfl, ?lda⟩, ⟨_, rfl, ?tax⟩, ⟨_, rfl, ?inx⟩⟩⟩
  case packed => rfl
  case lda => rfl
  case tax => rfl
  case inx => rfl

end Sys2Proof.Proofs
end

section
/-! PROOFS. Runs as sequences of steps (40_execution_cycle.md rule R100). Their two ideas: the loop of `run` follows the
steps one by one and stays in a terminal state once it is there, so only its bound has to be large enough; and it is,
because every step to a live state moves PC forward (rule R102), which leaves room for 0x10000 steps at most. -/

namespace Sys2Proof.Proofs

open Sys2Proof.Machine Sys2Proof.Claims

/-! ## Live and terminal states -/

theorem terminal_eq_false_iff_live {s : State} : s.terminal = false ↔ live s := by
  unfold State.terminal live
  cases s.run <;> decide

theorem terminal_of_ended {s : State} (h : endedWell s ∨ wentWrong s) : s.terminal = true := by
  unfold State.terminal
  rcases h with h | h <;> rw [h]

/-! ## Where a step leaves PC -/

/-- No action moves PC (rule R17): the fetch has done so. -/
theorem acts_pc {i : Instr} {s t : State} (h : Acts i s t) : t.pc = s.pc := by
  cases h <;> rfl

/-- A step from a live state to a live state moves PC forward (rule R102). -/
theorem pc_lt_of_stepWith {o : Opset} {s t : State} (hs : live s) (h : stepWith o s = .next t) (ht : live t) :
    s.pc.toNat < t.pc.toNat := by
  cases stepWith_ends (terminal_eq_false_iff_live.2 hs) h with
  | raised pc c _ _ hraise =>
    subst hraise
    exact absurd ht (by simp [live])
  | executed e i rest _ _ hfits hexec =>
    rw [acts_pc (exec_acts i hexec), State.setPc_pc, toNat_add_lit _ (by omega)]
    omega

/-! ## Sequences of steps -/

theorem stepsWith_succ {o : Opset} {n : Nat} {s t : State} :
    stepsWith o (n + 1) s = some t ↔ ∃ u, stepWith o s = .next u ∧ stepsWith o n u = some t := by
  rw [stepsWith]
  cases stepWith o s <;> simp

/-- Steps in a terminal state change nothing (rule R104). -/
theorem stepsWith_terminal {o : Opset} {s : State} (h : s.terminal = true) : ∀ n, stepsWith o n s = some s
  | 0 => rfl
  | n + 1 => stepsWith_succ.2 ⟨s, stepWith_terminal h, stepsWith_terminal h n⟩

theorem eq_of_stepsWith_terminal {o : Opset} {n : Nat} {s t : State} (hs : s.terminal = true)
    (h : stepsWith o n s = some t) : s = t :=
  Option.some.inj ((stepsWith_terminal hs n).symm.trans h)

/-- A sequence of steps that ends in a live state began in one. -/
theorem live_of_stepsWith {o : Opset} {n : Nat} {s t : State} (h : stepsWith o n s = some t) (ht : live t) : live s := by
  cases hs : s.terminal with
  | true =>
    obtain rfl := eq_of_stepsWith_terminal hs h
    exact ht
  | false => exact terminal_eq_false_iff_live.1 hs

/-- Each of the steps that lead to a live state has moved PC forward. -/
theorem pc_add_le_of_stepsWith {o : Opset} {n : Nat} {s t : State} (h : stepsWith o n s = some t) (ht : live t) :
    s.pc.toNat + n ≤ t.pc.toNat := by
  induction n generalizing s with
  | zero => cases h; exact Nat.le_refl _
  | succ n ih =>
    have hs := live_of_stepsWith h ht
    obtain ⟨u, hstep, hrest⟩ := stepsWith_succ.1 h
    have hfirst := pc_lt_of_stepWith hs hstep (live_of_stepsWith hrest ht)
    have hothers := ih hrest
    omega

/-- Where every smaller number of steps leaves the engine live, there are at most 0x10000 - PC of them (rule R102). -/
theorem steps_add_pc_le {o : Opset} {n : Nat} {s : State}
    (h : ∀ k, k < n → ∃ u, stepsWith o k s = some u ∧ live u) : n + s.pc.toNat ≤ 0x10000 := by
  cases n with
  | zero =>
    have htop := s.pc.isLt
    omega
  | succ m =>
    obtain ⟨u, hu, hlive⟩ := h m (Nat.lt_succ_self m)
    have hpc := pc_add_le_of_stepsWith hu hlive
    have htop := u.pc.isLt
    omega

/-! ## The loop of `run` -/

theorem runFor_terminal {o : Opset} {s : State} (h : s.terminal = true) (fuel : Nat) : runFor o fuel s = .next s := by
  cases fuel with
  | zero => rfl
  | succ fuel => rw [runFor, if_pos h]

theorem runFor_succ {o : Opset} {s u : State} (hs : live s) (h : stepWith o s = .next u) (fuel : Nat) :
    runFor o (fuel + 1) s = runFor o fuel u := by
  rw [runFor, terminal_eq_false_iff_live.2 hs, h]
  rfl

/-- A terminal state that steps lead to is where the loop ends, if its bound allows for as many steps. -/
theorem runFor_of_stepsWith {o : Opset} {n fuel : Nat} {s t : State} (h : stepsWith o n s = some t)
    (ht : t.terminal = true) (hn : n ≤ fuel) : runFor o fuel s = .next t := by
  induction n generalizing s fuel with
  | zero => cases h; exact runFor_terminal ht fuel
  | succ n ih =>
    cases hs : s.terminal with
    | true =>
      obtain rfl := eq_of_stepsWith_terminal hs h
      exact runFor_terminal hs fuel
    | false =>
      obtain ⟨u, hstep, hrest⟩ := stepsWith_succ.1 h
      obtain ⟨fuel, rfl⟩ := Nat.exists_eq_add_one_of_ne_zero (by omega : fuel ≠ 0)
      rw [runFor_succ (terminal_eq_false_iff_live.1 hs) hstep]
      exact ih hrest (by omega)

/-! ## What `run` returns -/

theorem result_of_endedWell {s : State} (h : endedWell s) : s.result = .halted true := by
  rw [State.result, h]

theorem result_of_wentWrong {s : State} (h : wentWrong s) : s.result = .error s.err := by
  rw [State.result, h]

theorem runCommand_of_run {o : Opset} {s t : State} (h : run o s = .next t) :
    runCommand o s = .next (t, t.result) := by
  rw [runCommand, h, withResult]

/-- Settles O35: fewer steps than the bound of `run` lead to the terminal state, so its loop ends there, and the result is
that of the state. -/
theorem runIsTheSequenceOfItsSteps : Obligations.RunIsTheSequenceOfItsSteps := by
  intro o s n t hsteps hended hlive
  have hbound : n ≤ Config.addressSpace := Nat.le_trans (Nat.le_add_right _ _) (steps_add_pc_le hlive)
  have hrun : run o s = .next t := runFor_of_stepsWith hsteps (terminal_of_ended hended) hbound
  refine ⟨hrun, fun hwell => ?halted, fun hwrong => ?faulted⟩
  case halted => rw [runCommand_of_run hrun, result_of_endedWell hwell]
  case faulted => rw [runCommand_of_run hrun, result_of_wentWrong hwrong]

end Sys2Proof.Proofs
end

section
/-! PROOFS. BRK's action (60_exceptions.md rule R227). Its one idea: the action is a write of P and a write of RUN, so what
is kept is what the two named updates keep, and the flags are those of `P | 0x10`. -/

namespace Sys2Proof.Proofs

open Sys2Proof.Machine Sys2Proof.Claims

/-- BRK completes in every state: P gets Break, RUN becomes Halted (rule R135). -/
theorem exec_brk (s : State) : exec .brk s = .next ((s.setP (s.p ||| Flag.b.mask)).setRun .halted) := rfl

/-- The two terminal states exclude each other (rule R257). -/
theorem not_wentWrong_of_endedWell {s : State} (h : endedWell s) : ¬ wentWrong s := by
  rw [wentWrong, h]
  exact RunState.noConfusion

theorem flag_b_of_p_eq_or_break {s t : State} (h : t.p = s.p ||| Flag.b.mask) : flag .b t.p = true := by
  rw [h, flag_or_break, if_pos rfl]

theorem keepsMemory_setP_setRun (s : State) (p : Byte) (r : RunState) : keepsMemory s ((s.setP p).setRun r) := by
  intro addr
  rw [State.readByte_setRun, State.readByte_setP]

/-- Settles O13: the flags by the law of `P | 0x10`, Halted is not Faulted, and neither of the two updates writes another
register or memory. -/
theorem brkHaltsAndSetsBreak : Obligations.BrkHaltsAndSetsBreak := by
  intro s
  have hended : endedWell ((s.setP (s.p ||| Flag.b.mask)).setRun .halted) := State.setRun_run _ _
  refine ⟨_, exec_brk s, ?breakSet, ?flags, hended, not_wentWrong_of_endedWell hended, ?registers⟩
  case breakSet => exact flag_b_of_p_eq_or_break rfl
  case flags => exact keepsFlagsBut_of_p_eq_or_break rfl
  case registers => exact ⟨rfl, rfl, rfl, rfl, rfl, rfl, keepsMemory_setP_setRun _ _ _⟩

end Sys2Proof.Proofs
end

section
/-! PROOFS. Decoding against encoding (30_encoding.md rules R70 to R75, 45_ext_addressing.md rules R140 and R141). Their two
ideas: the row of the EXT table at an instruction's opcode assembles the instruction from its operand bytes, and a row
assembles nothing but instructions of its own opcode and profile. -/

namespace Sys2Proof.Proofs

open Sys2Proof.Machine Sys2Proof.Claims

/-! ## The round trip from the instruction -/

/-- Every instruction has its row in the EXT table (rule R140). -/
theorem rowOfInstr : ∀ i : Instr, Laws.RowOfInstr.Statement i
  | .brk => Laws.RowOfInstr.brk
  | .ldaImm _ => Laws.RowOfInstr.ldaImm _
  | .tax => Laws.RowOfInstr.tax
  | .inx => Laws.RowOfInstr.inx
  | .ldaZp _ => Laws.RowOfInstr.ldaZp _
  | .ldaZpX _ => Laws.RowOfInstr.ldaZpX _
  | .ldaAbs _ _ => Laws.RowOfInstr.ldaAbs _ _
  | .ldaAbsX _ _ => Laws.RowOfInstr.ldaAbsX _ _
  | .ldaAbsY _ _ => Laws.RowOfInstr.ldaAbsY _ _
  | .ldaIndX _ => Laws.RowOfInstr.ldaIndX _
  | .ldaIndY _ => Laws.RowOfInstr.ldaIndY _
  | .staZp _ => Laws.RowOfInstr.staZp _
  | .staZpX _ => Laws.RowOfInstr.staZpX _
  | .staAbs _ _ => Laws.RowOfInstr.staAbs _ _
  | .staAbsX _ _ => Laws.RowOfInstr.staAbsX _ _
  | .staAbsY _ _ => Laws.RowOfInstr.staAbsY _ _
  | .staIndX _ => Laws.RowOfInstr.staIndX _
  | .staIndY _ => Laws.RowOfInstr.staIndY _
  | .adcImm _ => Laws.RowOfInstr.adcImm _
  | .adcZp _ => Laws.RowOfInstr.adcZp _
  | .adcZpX _ => Laws.RowOfInstr.adcZpX _
  | .adcAbs _ _ => Laws.RowOfInstr.adcAbs _ _
  | .adcAbsX _ _ => Laws.RowOfInstr.adcAbsX _ _
  | .adcAbsY _ _ => Laws.RowOfInstr.adcAbsY _ _
  | .adcIndX _ => Laws.RowOfInstr.adcIndX _
  | .adcIndY _ => Laws.RowOfInstr.adcIndY _
  | .sbcImm _ => Laws.RowOfInstr.sbcImm _
  | .sbcZp _ => Laws.RowOfInstr.sbcZp _
  | .sbcZpX _ => Laws.RowOfInstr.sbcZpX _
  | .sbcAbs _ _ => Laws.RowOfInstr.sbcAbs _ _
  | .sbcAbsX _ _ => Laws.RowOfInstr.sbcAbsX _ _
  | .sbcAbsY _ _ => Laws.RowOfInstr.sbcAbsY _ _
  | .sbcIndX _ => Laws.RowOfInstr.sbcIndX _
  | .sbcIndY _ => Laws.RowOfInstr.sbcIndY _
  | .aslAcc => Laws.RowOfInstr.aslAcc
  | .aslZp _ => Laws.RowOfInstr.aslZp _
  | .aslZpX _ => Laws.RowOfInstr.aslZpX _
  | .aslAbs _ _ => Laws.RowOfInstr.aslAbs _ _
  | .aslAbsX _ _ => Laws.RowOfInstr.aslAbsX _ _
  | .lsrAcc => Laws.RowOfInstr.lsrAcc
  | .lsrZp _ => Laws.RowOfInstr.lsrZp _
  | .lsrZpX _ => Laws.RowOfInstr.lsrZpX _
  | .lsrAbs _ _ => Laws.RowOfInstr.lsrAbs _ _
  | .lsrAbsX _ _ => Laws.RowOfInstr.lsrAbsX _ _
  | .bitZp _ => Laws.RowOfInstr.bitZp _
  | .bitAbs _ _ => Laws.RowOfInstr.bitAbs _ _

theorem decode_ext_encode (i : Instr) (rest : List Byte) : decode .ext (encode i ++ rest) = .ok (i, rest) := by
  obtain ⟨e, hrow, -, hassemble⟩ := rowOfInstr i
  simp only [encode, List.cons_append, decode, hrow, hassemble]

/-- Settles O1: in BASE by its four instructions, in EXT by each instruction's row. -/
theorem decodeOfEncode : Obligations.DecodeOfEncode := by
  intro o i rest hwf
  cases o with
  | base => exact decode_encode_of_isBase .base rest i hwf
  | ext => exact decode_ext_encode i rest

/-! ## The round trip from the bytes -/

/-- Inversion of `decode`: an opcode byte with an entry, and the entry's instruction of the bytes after it. -/
theorem decode_eq_ok {o : Opset} {bytes rest : List Byte} {i : Instr} (h : decode o bytes = .ok (i, rest)) :
    ∃ op tail e, bytes = op :: tail ∧ dispatch o op = some e ∧ e.assemble tail = some (i, rest) := by
  cases bytes with
  | nil => cases h
  | cons op tail =>
    simp only [decode] at h
    split at h
    next => cases h
    next e hd =>
      split at h
      next => cases h
      next r ha =>
        cases h
        exact ⟨op, tail, e, rfl, hd, ha⟩

/-- Settles O2: a row only assembles an instruction that encodes to the row's opcode and the operand bytes taken. -/
theorem encodeOfDecode : Obligations.EncodeOfDecode := by
  intro o bytes rest i h
  obtain ⟨op, tail, e, rfl, hd, ha⟩ := decode_eq_ok h
  obtain ⟨hop, htail, -, hwf⟩ := dispatch_sound hd tail rest i ha
  refine ⟨?_, hwf⟩
  rw [encode, hop, htail, List.cons_append]

/-! ## The tables -/

/-- A byte has an entry exactly when it is the opcode of a row (rule R73). -/
theorem dispatch_isSome_iff {o : Opset} {b : Byte} :
    (dispatch o b).isSome = true ↔ b ∈ (dispatchTable o).map Row.opcode := by
  simp [dispatch]

/-- The opcode column of the EXT rows holds the spec's 42 bytes, in another order. -/
theorem mem_extTable_opcodes {b : Byte} : b ∈ extTable.map Row.opcode ↔ b ∈ extOpcodes :=
  List.Perm.mem_iff (by decide)

/-- Settles O4: the opcode columns of the two tables, and that EXT only appends rows. -/
theorem dispatchHasExactlyTheTable : Obligations.DispatchHasExactlyTheTable := by
  refine ⟨fun b => dispatch_isSome_iff, fun b => ?_, fun b e => dispatch_of_dispatch_base .ext⟩
  rw [dispatch_isSome_iff, dispatchTable, List.map_append, List.mem_append, mem_extTable_opcodes]
  rfl

/-- Since `encode` decodes back, the encodings of the EXT profile are what `encode` says. -/
theorem isExtEncoding_iff {i : Instr} {bytes : List Byte} : isExtEncoding i bytes ↔ encode i = bytes :=
  ⟨And.left, fun h => ⟨h, fun rest => h ▸ decode_ext_encode i rest⟩⟩

/-- Settles O52: each row's bytes are `encode` of its instruction. -/
theorem extEncodingsRowByRow : Obligations.ExtEncodingsRowByRow := by
  intro v z l h
  simp only [isExtEncoding_iff]
  and_intros <;> rfl

end Sys2Proof.Proofs
end

section
/-! PROOFS. The flag-update rule forgets the old Z and N (40_execution_cycle.md rule R98). -/

namespace Sys2Proof.Proofs

open Sys2Proof.Machine Sys2Proof.Claims

/-- Settles O7: each flag after `SetZN` is a function of `r`, or the old flag; Z asks for r = 0 and N for bit 7 of r. -/
theorem setZNForgetsOldFlags : Obligations.SetZNForgetsOldFlags := by
  intro p q r
  refine ⟨eq_of_flags fun f => ?idempotent, ?zero, ?negative, ?notBoth⟩
  case idempotent =>
    simp only [flag_setZN]
    split_ifs <;> rfl
  case zero => rw [flag_z_setZN, flag_z_setZN]
  case negative => rw [flag_n_setZN, flag_n_setZN]
  case notBoth =>
    simp only [flag_z_setZN, flag_n_setZN, decide_eq_true_eq]
    omega

end Sys2Proof.Proofs
end

section
/-! PROOFS. What every action of the execute phase keeps (10_state.md rules R12, R13, R17, R22 to R25), by the inversion of
`exec` into the actions of the instruction families. -/

namespace Sys2Proof.Proofs

open Sys2Proof.Machine Sys2Proof.Claims

/-- No instruction stops the machine (rule R225). -/
theorem exec_next (i : Instr) (s : State) : ∃ t, exec i s = .next t := by
  cases i <;> exact ⟨_, rfl⟩

theorem completes_of_acts {i : Instr} {s : State} {P : State → Prop} (h : ∀ t, Acts i s t → P t) : completes i s P := by
  obtain ⟨t, ht⟩ := exec_next i s
  exact ⟨t, ht, h t (exec_acts i ht)⟩

theorem acts_reserved {i : Instr} {s t : State} (h : Acts i s t) : t.y = s.y ∧ t.sp = s.sp ∧ t.err = s.err := by
  cases h <;> exact ⟨rfl, rfl, rfl⟩

theorem acts_run {i : Instr} {s t : State} (h : Acts i s t) (hi : i ≠ .brk) : t.run = s.run := by
  cases h with
  | halts hbrk => exact absurd hbrk hi
  | _ => rfl

theorem acts_wf {i : Instr} {s t : State} (h : Acts i s t) (hs : Memory.wf s.mem) : Memory.wf t.mem := by
  cases h with
  | stores m | shiftsLeftMem m | shiftsRightMem m => exact writeByte_wf hs
  | _ => exact hs

/-- The flags outside C, Z, V and N: only BRK writes one of them, and it writes B. -/
theorem acts_flag {f : Flag} {i : Instr} {s t : State} (h : Acts i s t) (hf : f ∉ [.c, .z, .v, .n])
    (hb : f = .b → i ≠ .brk) : flag f t.p = flag f s.p := by
  simp only [List.mem_cons, List.not_mem_nil, or_false, not_or] at hf
  cases h with
  | halts hbrk => rw [State.setRun_p, State.setP_p, flag_or_break, if_neg fun h => hb h hbrk]
  | loads v => simp [loadA, hf]
  | stores m => rfl
  | transfers | increments => simp [hf]
  | adds v => simp [addToA, addFlags, hf]
  | subtracts v => simp [subFromA, addToA, addFlags, hf]
  | shiftsLeftA => simp [shiftLeftA, shiftFlags, hf]
  | shiftsLeftMem m => simp [shiftLeftMem, shiftFlags, hf]
  | shiftsRightA => simp [shiftRightA, shiftFlags, hf]
  | shiftsRightMem m => simp [shiftRightMem, shiftFlags, hf]
  | tests m => simp [testBits, bitFlags, hf]

/-- Settles O20: BRK's action writes Halted, every other action keeps RUN. -/
theorem onlyBrkHalts : Obligations.OnlyBrkHalts := by
  intro i s hrun
  by_cases hi : i = .brk
  · subst hi
    exact ⟨_, exec_brk s, fun _ => rfl, fun h => absurd rfl h⟩
  · exact completes_of_acts fun t h => ⟨fun hbrk => absurd hbrk hi, fun _ => (acts_run h hi).trans hrun⟩

/-- Settles O21, from what the actions keep. -/
theorem reservedStateIsNeverWritten : Obligations.ReservedStateIsNeverWritten := by
  intro i s
  refine completes_of_acts fun t h => ?_
  obtain ⟨hy, hsp, herr⟩ := acts_reserved h
  exact ⟨hy, hsp, acts_pc h, herr, acts_flag h (by decide) nofun, acts_flag h (by decide) nofun,
    acts_flag h (by decide) nofun, fun hi => ⟨acts_flag h (by decide) fun _ => hi, acts_run h hi⟩⟩

end Sys2Proof.Proofs
end

section
/-! PROOFS. The effects of LDA, STA, TAX and INX (41_load.md, 42_transfer.md, 43_increment.md, 46_ext_load_store.md): one
lemma for the action a family shares, and each addressing form is that action at its operand. -/

namespace Sys2Proof.Proofs

open Sys2Proof.Machine Sys2Proof.Claims

theorem loadsA_loadA (v : Byte) (s : State) : loadsA v s (loadA v s) :=
  ⟨rfl, flagsOf_of_p_eq_setZN rfl, rfl, ⟨rfl, rfl, rfl, rfl, rfl⟩, fun _ => rfl⟩

/-- Settles O9: every form is `loadA` of its operand byte. -/
theorem ldaLoadsTheOperand : Obligations.LdaLoadsTheOperand := by
  intro s
  refine ⟨fun v => ⟨_, rfl, loadsA_loadA v s⟩, fun z => ⟨_, rfl, ?zp⟩, fun z => ⟨_, rfl, ?zpX⟩, fun l h => ⟨_, rfl, ?abs⟩,
    fun l h => ⟨_, rfl, ?absX⟩, fun l h => ⟨_, rfl, ?absY⟩, fun z => ⟨_, rfl, ?indX⟩, fun z => ⟨_, rfl, ?indY⟩⟩
  all_goals exact loadsA_loadA _ s

theorem storesA_storeA (m : MemOperand) (s : State) : storesA (effectiveAddress s m) s (storeA m s) :=
  ⟨readByte_writeByte_self _ _ _, keepsMemoryBut_writeByte _ _ _, rfl, rfl, rfl, rfl, rfl, rfl, rfl, rfl⟩

/-- Settles O10: every form is `storeA` at its operand. -/
theorem staStoresTheAccumulator : Obligations.StaStoresTheAccumulator := by
  intro s
  refine ⟨fun z => ⟨_, rfl, ?zp⟩, fun z => ⟨_, rfl, ?zpX⟩, fun l h => ⟨_, rfl, ?abs⟩, fun l h => ⟨_, rfl, ?absX⟩,
    fun l h => ⟨_, rfl, ?absY⟩, fun z => ⟨_, rfl, ?indX⟩, fun z => ⟨_, rfl, ?indY⟩⟩
  all_goals exact storesA_storeA _ s

/-- Settles O11: TAX writes X and `SetZN` of it. -/
theorem taxCopiesTheAccumulator : Obligations.TaxCopiesTheAccumulator := fun _ =>
  ⟨_, rfl, rfl, flagsOf_of_p_eq_setZN rfl, rfl, ⟨rfl, rfl, rfl, rfl, rfl⟩, fun _ => rfl⟩

/-- Settles O12: INX writes X + 1, as a byte, and `SetZN` of it. -/
theorem inxAddsOneToX : Obligations.InxAddsOneToX := fun s =>
  ⟨_, rfl, BitVec.toNat_add s.x 1#8, flagsOf_of_p_eq_setZN rfl, rfl, ⟨rfl, rfl, rfl, rfl, rfl⟩, fun _ => rfl⟩

/-- Settles O46: the fetch reads back what `storeA` has written. -/
theorem fetchSeesTheStoredByte : Obligations.FetchSeesTheStoredByte := by
  intro s l h hne
  refine ⟨storeA (.abs l h) s, rfl, ?_⟩
  obtain ⟨hstored, -⟩ := storesA_storeA (.abs l h) s
  rw [fetchByte_below hne, State.setPc_pc, State.readByte_setPc, hstored]
  rfl

end Sys2Proof.Proofs
end

section
/-! PROOFS. The flags of the arithmetic, shift and test instructions as statements about numbers (47_ext_arithmetic.md,
48_ext_shift_bit.md). The two ideas: the signed-range test of rules R165 to R167 asks whether both operands have a sign
other than the result's, and SBC is ADC of the complement, which is 255 - M as an unsigned and -1 - M as a signed number. -/

namespace Sys2Proof.Proofs

open Sys2Proof.Machine Sys2Proof.Claims

/-! ## ADC and SBC -/

theorem overflows_iff (a m r : Byte) : overflows a m r = true ↔ a.msb ≠ r.msb ∧ m.msb ≠ r.msb := by
  have hmask : ∀ v : Byte, (v &&& 0x80#8 != 0x00#8) = v.getLsbD 7 := fun v => by
    rw [show (0x80#8 : Byte) = BitVec.twoPow 8 7 from rfl, BitVec.and_twoPow]
    cases v.getLsbD 7 <;> rfl
  rw [overflows, hmask]
  simp [BitVec.msb_eq_getLsbD_last]

theorem toNat_carrySum (a m : Byte) (c : Bool) :
    (BitVec.ofNat 8 (carrySum a m c)).toNat = (a.toNat + m.toNat + c.toNat) % 256 :=
  BitVec.toNat_ofNat _ _

/-- The signed-range test of ADC says that the signed sum leaves -128..127 (rule R165). -/
theorem overflows_carrySum_iff (a m : Byte) (c : Bool) :
    overflows a m (BitVec.ofNat 8 (carrySum a m c)) = true ↔
      a.toInt + m.toInt + c.toNat < -128 ∨ 127 < a.toInt + m.toInt + c.toNat := by
  have hsum := toNat_carrySum a m c
  have ha := a.isLt
  have hm := m.isLt
  have hc := c.toNat_le
  rw [overflows_iff]
  simp only [BitVec.msb_eq_decide, BitVec.toInt_eq_toNat_cond, ne_eq, decide_eq_decide, hsum]
  omega

theorem addsToA_addToA (m : Byte) (s : State) : addsToA m s (addToA m s) := by
  refine ⟨toNat_carrySum _ _ _, ?carry, ?overflow, ?flags, rfl, ⟨rfl, rfl, rfl, rfl, rfl⟩, fun _ => rfl⟩
  case carry =>
    have hc : flag .c (addToA m s).p = decide (255 < carrySum s.a m (flag .c s.p)) := by simp [addToA, addFlags]
    exact hc
  case overflow =>
    have hv : flag .v (addToA m s).p = overflows s.a m (BitVec.ofNat 8 (carrySum s.a m (flag .c s.p))) := by
      simp [addToA, addFlags]
    rw [hv]
    exact overflows_carrySum_iff s.a m (flag .c s.p)
  case flags =>
    refine ⟨flag_z_setZN _ _, flag_n_setZN _ _, fun f hf => ?_⟩
    simp only [List.mem_cons, List.not_mem_nil, or_false, not_or] at hf
    simp [addToA, addFlags, hf]

/-- Settles O14: every form is `addToA` of its operand byte. -/
theorem adcAddsWithCarry : Obligations.AdcAddsWithCarry := by
  intro s
  refine ⟨fun v => ⟨_, rfl, ?imm⟩, fun z => ⟨_, rfl, ?zp⟩, fun z => ⟨_, rfl, ?zpX⟩, fun l h => ⟨_, rfl, ?abs⟩,
    fun l h => ⟨_, rfl, ?absX⟩, fun l h => ⟨_, rfl, ?absY⟩, fun z => ⟨_, rfl, ?indX⟩, fun z => ⟨_, rfl, ?indY⟩⟩
  all_goals exact addsToA_addToA _ s

theorem toNat_xor_ones (m : Byte) : (m ^^^ 0xFF#8).toNat = 255 - m.toNat := by
  rw [show m ^^^ 0xFF#8 = ~~~m from BitVec.xor_allOnes, BitVec.toNat_not]

theorem carryIn_le (s : State) : carryIn s ≤ 1 := Bool.toNat_le _

/-- Adding the complement is subtracting with borrow (rule R166). -/
theorem subtractsFromA_of_addsToA {m : Byte} {s t : State} (h : addsToA (m ^^^ 0xFF#8) s t) : subtractsFromA m s t := by
  obtain ⟨hsum, hcarry, hover, hrest⟩ := h
  have hnot := toNat_xor_ones m
  have hm := m.isLt
  have hc := carryIn_le s
  have hint : (m ^^^ 0xFF#8).toInt = -1 - m.toInt := by
    simp only [BitVec.toInt_eq_toNat_cond, hnot]
    omega
  refine ⟨?diff, ?carry, ?overflow, hrest⟩
  case diff =>
    rw [hsum, hnot]
    omega
  case carry =>
    rw [hcarry, hnot, decide_eq_decide]
    omega
  case overflow =>
    rw [hover, hint]
    omega

/-- Settles O15: every form is `subFromA` of its operand byte. -/
theorem sbcSubtractsWithBorrow : Obligations.SbcSubtractsWithBorrow := by
  intro s
  refine ⟨fun v => ⟨_, rfl, ?imm⟩, fun z => ⟨_, rfl, ?zp⟩, fun z => ⟨_, rfl, ?zpX⟩, fun l h => ⟨_, rfl, ?abs⟩,
    fun l h => ⟨_, rfl, ?absX⟩, fun l h => ⟨_, rfl, ?absY⟩, fun z => ⟨_, rfl, ?indX⟩, fun z => ⟨_, rfl, ?indY⟩⟩
  all_goals exact subtractsFromA_of_addsToA (addsToA_addToA _ s)

/-! ## ASL, LSR and BIT -/

theorem flagsOf_of_p_eq_shiftFlags {out : Bool} {r : Byte} {s t : State} (h : t.p = shiftFlags s.p out r) :
    flagsOf r [.c] s t := by
  rw [flagsOf, h]
  refine ⟨flag_z_setZN _ _, flag_n_setZN _ _, fun f hf => ?_⟩
  simp only [List.mem_cons, List.not_mem_nil, or_false, not_or] at hf
  simp [h, shiftFlags, hf]

theorem flag_c_shiftFlags (p : Byte) (out : Bool) (r : Byte) : flag .c (shiftFlags p out r) = out := by
  simp [shiftFlags]

theorem shiftedLeft_of_p_eq {v r : Byte} {s t : State} (hr : r = v <<< 1) (hp : t.p = shiftFlags s.p (v.getLsbD 7) r) :
    shiftedLeft v r s t := by
  refine ⟨?value, ?carry, flagsOf_of_p_eq_shiftFlags hp⟩
  case value => rw [hr, BitVec.toNat_shiftLeft, Nat.shiftLeft_eq, pow_one]
  case carry =>
    rw [hp, flag_c_shiftFlags]
    exact v.msb_eq_getLsbD_last.symm.trans v.msb_eq_decide

theorem shiftedRight_of_p_eq {v r : Byte} {s t : State} (hr : r = v >>> 1) (hp : t.p = shiftFlags s.p (v.getLsbD 0) r) :
    shiftedRight v r s t := by
  have hvalue : r.toNat = v.toNat / 2 := by rw [hr, BitVec.toNat_ushiftRight, Nat.shiftRight_eq_div_pow, pow_one]
  have hv := v.isLt
  have hflags : flagsOf r [.c] s t := flagsOf_of_p_eq_shiftFlags hp
  refine ⟨hvalue, ?carry, ?negative, hflags⟩
  case carry => simp [hp, flag_c_shiftFlags, BitVec.getLsbD, Nat.testBit_zero]
  case negative =>
    obtain ⟨-, hn, -⟩ := hflags
    rw [hn, decide_eq_false_iff_not]
    omega

theorem readByte_shiftMem (s : State) (ea : Addr) (r p : Byte) : ((s.writeByte ea r).setP p).readByte ea = r := by
  rw [State.readByte_setP, readByte_writeByte_self]

theorem keepsAllButByte_shiftMem (s : State) (ea : Addr) (r p : Byte) :
    keepsAllButByte ea s ((s.writeByte ea r).setP p) :=
  ⟨rfl, rfl, ⟨rfl, rfl, rfl, rfl, rfl⟩, keepsMemoryBut_writeByte _ _ _⟩

/-- The effect of ASL on memory (rule R176). -/
theorem shiftLeftMem_effect (m : MemOperand) (s : State) :
    shiftedLeft (s.readByte (effectiveAddress s m)) ((shiftLeftMem m s).readByte (effectiveAddress s m)) s
      (shiftLeftMem m s) ∧
    keepsAllButByte (effectiveAddress s m) s (shiftLeftMem m s) := by
  rw [shiftLeftMem, readByte_shiftMem]
  exact ⟨shiftedLeft_of_p_eq rfl rfl, keepsAllButByte_shiftMem _ _ _ _⟩

/-- Settles O16: A by the shift of A, every memory form by `shiftLeftMem` at its operand. -/
theorem aslShiftsLeft : Obligations.AslShiftsLeft := by
  intro s
  refine ⟨⟨_, rfl, shiftedLeft_of_p_eq rfl rfl, rfl, ⟨rfl, rfl, rfl, rfl, rfl⟩, fun _ => rfl⟩, fun z => ⟨_, rfl, ?zp⟩,
    fun z => ⟨_, rfl, ?zpX⟩, fun l h => ⟨_, rfl, ?abs⟩, fun l h => ⟨_, rfl, ?absX⟩⟩
  all_goals exact shiftLeftMem_effect _ s

/-- The effect of LSR on memory (rule R178). -/
theorem shiftRightMem_effect (m : MemOperand) (s : State) :
    shiftedRight (s.readByte (effectiveAddress s m)) ((shiftRightMem m s).readByte (effectiveAddress s m)) s
      (shiftRightMem m s) ∧
    keepsAllButByte (effectiveAddress s m) s (shiftRightMem m s) := by
  rw [shiftRightMem, readByte_shiftMem]
  exact ⟨shiftedRight_of_p_eq rfl rfl, keepsAllButByte_shiftMem _ _ _ _⟩

/-- Settles O17: A by the shift of A, every memory form by `shiftRightMem` at its operand. -/
theorem lsrShiftsRight : Obligations.LsrShiftsRight := by
  intro s
  refine ⟨⟨_, rfl, shiftedRight_of_p_eq rfl rfl, rfl, ⟨rfl, rfl, rfl, rfl, rfl⟩, fun _ => rfl⟩, fun z => ⟨_, rfl, ?zp⟩,
    fun z => ⟨_, rfl, ?zpX⟩, fun l h => ⟨_, rfl, ?abs⟩, fun l h => ⟨_, rfl, ?absX⟩⟩
  all_goals exact shiftRightMem_effect _ s

theorem testsBits_testBits (m : MemOperand) (s : State) : testsBits (operandByte s m) s (testBits m s) := by
  refine ⟨?zero, ?negative, ?overflow, fun f hf => ?others, rfl, rfl, ⟨rfl, rfl, rfl, rfl, rfl⟩, fun _ => rfl⟩
  case zero => simp [testBits, bitFlags, ← BitVec.toNat_inj, beq_eq_decide]
  case negative => simp [testBits, bitFlags]
  case overflow => simp [testBits, bitFlags]
  case others =>
    simp only [List.mem_cons, List.not_mem_nil, or_false, not_or] at hf
    simp [testBits, bitFlags, hf]

/-- Settles O18: both forms are `testBits` at their operand. -/
theorem bitTestsMemory : Obligations.BitTestsMemory := fun s =>
  ⟨fun _ => ⟨_, rfl, testsBits_testBits _ s⟩, fun _ _ => ⟨_, rfl, testsBits_testBits _ s⟩⟩

end Sys2Proof.Proofs
end

section
/-! PROOFS. Effective addresses as numbers (45_ext_addressing.md rules R144 to R151): a page-zero address is its byte, a word
is its high byte times 256 plus its low byte, and every other sum is one of machine words. -/

namespace Sys2Proof.Proofs

open Sys2Proof.Machine Sys2Proof.Claims

@[simp] theorem toNat_pageZero (b : Byte) : (pageZero b).toNat = b.toNat := by
  simp only [pageZero, BitVec.zeroExtend, BitVec.toNat_setWidth]
  omega

@[simp] theorem toNat_word (hi lo : Byte) : (word hi lo).toNat = hi.toNat * 256 + lo.toNat := by
  rw [word, BitVec.toNat_append, ← Nat.shiftLeft_add_eq_or_of_lt lo.isLt, Nat.shiftLeft_eq]

theorem pageZero_eq_ofNat {b : Byte} {n : Nat} (h : b.toNat = n) : pageZero b = BitVec.ofNat 16 n := by
  apply BitVec.eq_of_toNat_eq
  rw [toNat_pageZero, BitVec.toNat_ofNat, ← h]
  omega

/-- The pointer's high byte is read at the next page-zero address, which wraps (rules R149, R150). -/
theorem toNat_pointerAt (s : State) {b : Byte} {q : Nat} (h : b.toNat = q) :
    (pointerAt s b).toNat =
      (s.readByte (BitVec.ofNat 16 ((q + 1) % 256))).toNat * 256 + (s.readByte (BitVec.ofNat 16 q)).toNat := by
  have hnext : (b + 1#8).toNat = (q + 1) % 256 := h ▸ BitVec.toNat_add b 1#8
  rw [pointerAt, toNat_word, pageZero_eq_ofNat h, pageZero_eq_ofNat hnext]

/-- A 16-bit index sum wraps modulo 65536 (rules R147, R148, R150). -/
theorem toNat_add_index (a : Addr) (b : Byte) : (a + b.zeroExtend 16).toNat = (a.toNat + b.toNat) % 65536 := by
  rw [BitVec.toNat_add, ← toNat_pageZero b]
  rfl

/-- Settles O19, mode by mode. -/
theorem effectiveAddressesWrap : Obligations.EffectiveAddressesWrap := by
  intro s z l h
  refine ⟨toNat_pageZero z, ?zpX, toNat_word h l, ?absX, ?absY, fun q hq => ?indX, ?indY⟩
  case zpX => rw [effectiveAddress, toNat_pageZero, BitVec.toNat_add]
  case absX => rw [effectiveAddress, toNat_add_index, toNat_word]
  case absY => rw [effectiveAddress, toNat_add_index, toNat_word]
  case indX => exact toNat_pointerAt s ((BitVec.toNat_add z s.x).trans hq.symm)
  case indY => rw [effectiveAddress, toNat_add_index, toNat_pointerAt s rfl]

end Sys2Proof.Proofs
end

section
/-! PROOFS. The whole step (40_execution_cycle.md rule R91), in the cases of the fetch (60_exceptions.md rule R230): a raised
condition, or the action of the instruction at PC on the state with RUN Running and PC past it. -/

namespace Sys2Proof.Proofs

open Sys2Proof.Machine Sys2Proof.Claims

/-- Settles O23: a raised condition is a next state, and so is every action's end. -/
theorem everyStepHasANextState : Obligations.EveryStepHasANextState := by
  intro o s
  cases hs : s.terminal with
  | true => exact ⟨s, stepWith_terminal hs⟩
  | false =>
    rw [stepWith_live hs]
    cases fetchInstr o (s.setRun .running) with
    | got i u => exact exec_next i u
    | raised u => exact ⟨u, rfl⟩

theorem stepsTo_of_ends {o : Opset} {s : State} {P : State → Prop} (hs : live s) (h : ∀ t, StepEnds o s t → P t) :
    stepsTo o s P := by
  obtain ⟨t, ht⟩ := everyStepHasANextState o s
  exact ⟨t, ht, h t (stepWith_ends (terminal_eq_false_iff_live.2 hs) ht)⟩

/-! ## The step that executes -/

/-- The state the action of an instruction of `n` bytes starts from: RUN Running and PC past the instruction (rule R17). -/
def fetchedState (n : Nat) (s : State) : State := (s.setRun .running).setPc (s.pc + BitVec.ofNat 16 n)

theorem stepWith_executes {o : Opset} {s : State} {e : Entry} {i : Instr} {rest : List Byte} (hs : live s)
    (hd : dispatch o (s.readByte s.pc) = some e) (hi : instrAt s e = some (i, rest))
    (hp : s.pc.toNat + 1 + operandCount e ≤ 0xFFFF) :
    stepWith o s = exec i (fetchedState (1 + operandCount e) s) := by
  rw [stepWith_live (terminal_eq_false_iff_live.2 hs), fetchInstr_got (s := s.setRun .running) hd hi hp]
  rfl

theorem length_eq (i : Instr) : i.length = 1 + i.operandBytes.length := Nat.add_comm _ _

/-- Settles O22: what `decode` reads of the bytes at PC is the entry of the opcode byte and the instruction it makes. -/
theorem stepRunsTheDecodedInstruction : Obligations.StepRunsTheDecodedInstruction := by
  refine ⟨fun o s i rest hs hdecode _ hp => ?_, fun _ => rfl⟩
  obtain ⟨op, tail, e, hbytes, hd, ha⟩ := decode_eq_ok hdecode
  obtain ⟨rfl, rfl⟩ := List.cons.inj hbytes
  obtain ⟨-, -, hcount, -⟩ := dispatch_sound hd _ _ _ ha
  rw [length_eq, hcount] at hp ⊢
  exact stepWith_executes hs hd ha (by omega)

/-! ## The step that raises a condition -/

theorem faultedWith_raise (c : Condition) (pc : Addr) (s : State) :
    faultedWith c pc s (((s.setRun .running).setPc pc).raise c) :=
  ⟨rfl, rfl, rfl, rfl, rfl, rfl, rfl, rfl, fun _ => rfl⟩

theorem stepsTo_of_raised {o : Opset} {s u : State} {P : State → Prop} (hs : live s)
    (hf : fetchInstr o (s.setRun .running) = .raised u) (hu : P u) : stepsTo o s P := by
  refine ⟨u, ?_, hu⟩
  rw [stepWith_live (terminal_eq_false_iff_live.2 hs), hf]
  rfl

/-- The opcode fetch overruns at 0xFFFF, whatever the byte there is (rule R230). -/
theorem stepsTo_overran_of_top (o : Opset) {s : State} (hs : live s) (hpc : s.pc.toNat = 0xFFFF) :
    stepsTo o s (overran s) := by
  have htop : s.pc = 0xFFFF#16 := BitVec.eq_of_toNat_eq hpc
  refine stepsTo_of_raised hs (fetchInstr_top o htop) ?_
  exact ⟨rfl, rfl, htop, rfl, rfl, rfl, rfl, rfl, fun _ => rfl⟩

theorem stepsTo_overran_of_operand {o : Opset} {s : State} {e : Entry} (hs : live s) (hpc : s.pc.toNat < 0xFFFF)
    (hd : dispatch o (s.readByte s.pc) = some e) (hover : 0xFFFF < s.pc.toNat + 1 + operandCount e) :
    stepsTo o s (overran s) :=
  stepsTo_of_raised hs (fetchInstr_operand_raised (s := s.setRun .running) hpc hd hover) (faultedWith_raise _ _ s)

/-- Settles O28: the three conditions in the order of the fetch. -/
theorem faultingStepLeavesTheRest : Obligations.FaultingStepLeavesTheRest := by
  intro o s hs
  refine ⟨stepsTo_overran_of_top o hs, fun hpc hd => ?unimplemented, fun e => stepsTo_overran_of_operand hs⟩
  exact stepsTo_of_raised hs (fetchInstr_unimplemented (s := s.setRun .running) hpc hd) (faultedWith_raise _ _ s)

/-! ## The whole step of each BASE instruction -/

/-- The row of a BASE opcode byte at PC, in either profile. -/
theorem dispatch_at_pc {o : Opset} {s : State} {op : Byte} {e : Entry} (hop : s.readByte s.pc = op)
    (hd : dispatch .base op = some e) : dispatch o (s.readByte s.pc) = some e :=
  hop ▸ dispatch_of_dispatch_base o hd

/-- A one-byte BASE instruction below 0xFFFF: the step is its action. -/
theorem stepWith_imp {o : Opset} {s : State} {op : Byte} {i : Instr} (hs : live s) (hop : s.readByte s.pc = op)
    (hd : dispatch .base op = some (.imp i)) (hpc : s.pc.toNat < 0xFFFF) :
    stepWith o s = exec i (fetchedState 1 s) := by
  have hi : instrAt s (.imp i) = some (i, _) := rfl
  rw [stepWith_executes hs (dispatch_at_pc hop hd) hi (by simp only [operandCount]; omega), operandCount]

theorem toNat_fetchedState_pc {s : State} {n : Nat} (h : s.pc.toNat + n ≤ 0xFFFF) :
    (fetchedState n s).pc.toNat = s.pc.toNat + n :=
  toNat_add_lit n h

/-- Settles O24: LDA's effect from the state past both bytes; at 0xFFFE and 0xFFFF one of the two fetches overruns. -/
theorem stepOfLdaImmediate : Obligations.StepOfLdaImmediate := by
  intro o s hs hop
  have hd : dispatch o (s.readByte s.pc) = some (.imm .ldaImm) := dispatch_at_pc hop rfl
  refine ⟨fun hpc => ?completes, fun hpc => ?overruns⟩
  case completes =>
    have hstep := stepWith_executes hs hd rfl (by simp only [operandCount]; omega)
    obtain ⟨lda, -⟩ := ldaLoadsTheOperand (fetchedState 2 s)
    obtain ⟨t, ht, ha, hflags, hx, ⟨hy, hsp, hpc', hrun, herr⟩, hmem⟩ := lda (s.readByte (s.pc + 1#16))
    have hpc2 := toNat_fetchedState_pc (s := s) (n := 2) (by omega)
    exact ⟨t, hstep.trans ht, ha, hpc' ▸ hpc2, hrun, ha ▸ hflags, hx, hy, hsp, herr, hmem⟩
  case overruns =>
    by_cases htop : s.pc.toNat = 0xFFFF
    · exact stepsTo_overran_of_top o hs htop
    · have hlt := s.pc.isLt
      exact stepsTo_overran_of_operand hs (by omega) hd (by simp only [operandCount]; omega)

/-- Settles O25: TAX's effect from the state past its byte. -/
theorem stepOfTax : Obligations.StepOfTax := by
  intro o s hs hop
  refine ⟨fun hpc => ?completes, stepsTo_overran_of_top o hs⟩
  obtain ⟨t, ht, hx, hflags, ha, ⟨hy, hsp, hpc', hrun, herr⟩, hmem⟩ := taxCopiesTheAccumulator (fetchedState 1 s)
  have hpc1 := toNat_fetchedState_pc (s := s) (n := 1) (by omega)
  exact ⟨t, (stepWith_imp hs hop rfl hpc).trans ht, hx, hpc' ▸ hpc1, hrun, hx ▸ hflags, ha, hy, hsp, herr, hmem⟩

/-- Settles O26: INX's effect from the state past its byte. -/
theorem stepOfInx : Obligations.StepOfInx := by
  intro o s hs hop
  refine ⟨fun hpc => ?completes, stepsTo_overran_of_top o hs⟩
  obtain ⟨t, ht, hx, hflags, ha, ⟨hy, hsp, hpc', hrun, herr⟩, hmem⟩ := inxAddsOneToX (fetchedState 1 s)
  have hpc1 := toNat_fetchedState_pc (s := s) (n := 1) (by omega)
  exact ⟨t, (stepWith_imp hs hop rfl hpc).trans ht, hx, hpc' ▸ hpc1, hrun, hflags, ha, hy, hsp, herr, hmem⟩

/-- The step of a BRK below 0xFFFF (rule R135). -/
theorem stepWith_brk (o : Opset) {s : State} (hs : live s) (hop : s.readByte s.pc = 0x00#8) (hpc : s.pc.toNat < 0xFFFF) :
    stepWith o s = .next (((fetchedState 1 s).setP (s.p ||| Flag.b.mask)).setRun .halted) :=
  stepWith_imp hs hop rfl hpc

/-- Settles O27: BRK writes P and RUN on the state past its byte. -/
theorem stepOfBrk : Obligations.StepOfBrk := by
  intro o s hs hop
  refine ⟨fun hpc => ?completes, stepsTo_overran_of_top o hs⟩
  have hpc1 := toNat_fetchedState_pc (s := s) (n := 1) (by omega)
  exact ⟨_, stepWith_brk o hs hop hpc, rfl, hpc1, rfl, rfl, rfl, rfl, rfl, rfl, fun _ => rfl⟩

/-! ## What every step can and cannot do -/

/-- The instruction an entry makes of the bytes at PC has the opcode byte at PC. -/
theorem opcode_eq_of_executed {o : Opset} {s : State} {e : Entry} {i : Instr} {rest : List Byte}
    (hd : dispatch o (s.readByte s.pc) = some e) (hi : instrAt s e = some (i, rest)) : i.opcode = s.readByte s.pc := by
  obtain ⟨hop, -⟩ := dispatch_sound hd _ _ _ hi
  exact hop

/-- Settles O30: a BRK below 0xFFFF halts; otherwise the step raised a condition or ran another instruction. -/
theorem stepHaltsExactlyOnBrk : Obligations.StepHaltsExactlyOnBrk := by
  intro o s hs
  by_cases hbrk : s.readByte s.pc = 0x00#8 ∧ s.pc.toNat < 0xFFFF
  · exact ⟨_, stepWith_brk o hs hbrk.1 hbrk.2, iff_of_true rfl hbrk⟩
  · refine stepsTo_of_ends hs fun t ht => iff_of_false (fun hend => ?_) hbrk
    cases ht with
    | raised pc c _ _ ht => exact not_wentWrong_of_endedWell hend (ht ▸ rfl)
    | executed e i rest hd hi hp ht =>
      have hne : i ≠ .brk := by
        rintro rfl
        exact hbrk ⟨(opcode_eq_of_executed hd hi).symm, by omega⟩
      exact RunState.noConfusion ((acts_run (exec_acts i ht) hne).symm.trans hend)

theorem operandCount_le (e : Entry) : operandCount e ≤ 2 := by
  cases e <;> simp [operandCount]

/-- Every BASE instruction has one operand byte at most (rule R74). -/
theorem operandCount_le_of_dispatch_base {op : Byte} {e : Entry} (h : dispatch .base op = some e) :
    operandCount e ≤ 1 := by
  have hrows : ∀ r ∈ baseTable, operandCount r.entry ≤ 1 := by simp [baseTable, operandCount]
  obtain ⟨r, hr, rfl⟩ := Option.map_eq_some_iff.1 h
  exact hrows r (List.mem_of_find?_eq_some hr)

/-- Settles O31: a raised condition leaves PC not behind, an executed instruction past its one to three bytes. -/
theorem stepMovesPcForward : Obligations.StepMovesPcForward := by
  intro o s hs
  refine stepsTo_of_ends hs fun t ht => ?_
  cases ht with
  | raised pc c hpc _ ht =>
    subst ht
    exact ⟨hpc, fun hne => absurd rfl hne⟩
  | executed e i rest hd _ hp ht =>
    have hpc := congrArg BitVec.toNat (acts_pc (exec_acts i ht))
    rw [State.setPc_pc, toNat_add_lit _ (by omega)] at hpc
    have hcount := operandCount_le e
    refine ⟨by omega, fun _ => ⟨by omega, by omega, ?base⟩⟩
    rintro rfl
    have hcount1 := operandCount_le_of_dispatch_base hd
    omega

theorem fetchInstr_congr {o o' : Opset} {s : State} (h : dispatch o (s.readByte s.pc) = dispatch o' (s.readByte s.pc)) :
    fetchInstr o s = fetchInstr o' s := by
  by_cases hpc : s.pc = 0xFFFF#16
  · rw [fetchInstr_top o hpc, fetchInstr_top o' hpc]
  · simp only [fetchInstr, fetchByte_below hpc, Fetched.andThen, h]

/-- Settles O32: a BASE byte has the same row in both tables, and the step uses the profile for nothing else. -/
theorem profilesAgreeOnBaseOpcodes : Obligations.ProfilesAgreeOnBaseOpcodes := by
  intro s hmem
  obtain ⟨hbase, -, hsame⟩ := dispatchHasExactlyTheTable
  obtain ⟨e, he⟩ := Option.isSome_iff_exists.1 ((hbase _).2 hmem)
  have hfetch : fetchInstr .base (s.setRun .running) = fetchInstr .ext (s.setRun .running) :=
    fetchInstr_congr (he.trans (hsame _ e he).symm)
  rw [stepWith, stepWith, hfetch]

/-- What a BASE instruction does: it keeps memory, and leaves P as `SetZN` of a byte or with Break set. -/
theorem exec_base {s t : State} : ∀ {i : Instr}, i.isBase = true → exec i s = .next t →
    t.mem = s.mem ∧ (t.p = s.p ||| Flag.b.mask ∨ ∃ r, t.p = setZN s.p r)
  | .brk, _, rfl => ⟨rfl, .inl rfl⟩
  | .ldaImm _, _, rfl => ⟨rfl, .inr ⟨_, rfl⟩⟩
  | .tax, _, rfl => ⟨rfl, .inr ⟨_, rfl⟩⟩
  | .inx, _, rfl => ⟨rfl, .inr ⟨_, rfl⟩⟩

theorem isBase_of_dispatch_base {s : State} {e : Entry} {i : Instr} {rest : List Byte}
    (hd : dispatch .base (s.readByte s.pc) = some e) (hi : instrAt s e = some (i, rest)) : i.isBase = true := by
  obtain ⟨-, -, -, hwf⟩ := dispatch_sound hd _ _ _ hi
  exact hwf

/-- Settles O33: neither a raised condition nor a BASE action writes memory. -/
theorem baseStepKeepsMemory : Obligations.BaseStepKeepsMemory := by
  intro s
  cases hs : s.terminal with
  | true => exact ⟨s, stepWith_terminal hs, rfl⟩
  | false =>
    refine stepsTo_of_ends (terminal_eq_false_iff_live.1 hs) fun t ht => ?_
    cases ht with
    | raised pc c _ _ ht => subst ht; rfl
    | executed e i rest hd hi _ ht =>
      obtain ⟨hmem, -⟩ := exec_base (isBase_of_dispatch_base hd hi) ht
      exact hmem

end Sys2Proof.Proofs
end

section
/-! PROOFS. The invariants of 10_state.md. Their shape: they hold after construction, and every step and every load keeps
them, so they hold of every state a host can reach (50_interfaces.md rule R210). -/

namespace Sys2Proof.Proofs

open Sys2Proof.Machine Sys2Proof.Claims

/-! ## What the invariant says of a live state -/

theorem not_halted_of_live {s : State} (hs : live s) : s.run ≠ .halted := by
  rcases hs with h | h <;> rw [h] <;> exact RunState.noConfusion

theorem not_faulted_of_live {s : State} (hs : live s) : s.run ≠ .faulted := by
  rcases hs with h | h <;> rw [h] <;> exact RunState.noConfusion

theorem flag_b_of_inv_live {s : State} (hinv : s.Inv) (hs : live s) : flag .b s.p = false :=
  Bool.eq_false_iff.2 fun hb => not_halted_of_live hs (hinv.breakIffHalted.1 hb)

theorem err_of_inv_live {s : State} (hinv : s.Inv) (hs : live s) : s.err = none :=
  Option.not_isSome_iff_eq_none.1 fun herr => not_faulted_of_live hs (hinv.errIffFaulted.1 herr)

/-! ## Every step keeps the invariant -/

/-- A raised condition keeps the invariant: Faulted and ERR are written together (rule R228). -/
theorem inv_raise {s : State} (hinv : s.Inv) (hs : live s) (pc : Addr) {c : Condition}
    (hc : (∃ b a, c = .unimplementedOpcode b a) ∨ c = .addressOverrun Config.addressSpace) :
    ((s.setPc pc).raise c).Inv where
  memWf := hinv.memWf
  yZero := hinv.yZero
  spZero := hinv.spZero
  interruptClear := hinv.interruptClear
  decimalClear := hinv.decimalClear
  unusedClear := hinv.unusedClear
  breakIffHalted := by simp [flag_b_of_inv_live hinv hs]
  errIffFaulted := by simp
  errKind := fun d hd => Option.some.inj hd ▸ hc
  resetClean := RunState.noConfusion

/-- B and RUN after an action in Running: BRK sets both to halted, every other instruction keeps both. -/
theorem break_iff_halted_of_exec {i : Instr} {s t : State} (h : exec i s = .next t) (hrun : s.run = .running)
    (hb : flag .b s.p = false) : (flag .b t.p = true ↔ t.run = .halted) ∧ (t.run = .halted ∨ t.run = .running) := by
  by_cases hi : i = .brk
  · subst hi
    cases h
    exact ⟨iff_of_true (flag_b_of_p_eq_or_break rfl) rfl, .inl rfl⟩
  · have hacts := exec_acts i h
    have ht : t.run = .running := (acts_run hacts hi).trans hrun
    simp [acts_flag hacts (f := .b) (by decide) fun _ => hi, hb, ht]

/-- An action in Running keeps the invariant. -/
theorem inv_exec {i : Instr} {s t : State} (h : exec i s = .next t) (hinv : s.Inv) (hrun : s.run = .running) : t.Inv := by
  obtain ⟨u, hu, hy, hsp, -, herr, hi, hd, hunused, -⟩ := reservedStateIsNeverWritten i s
  obtain rfl : u = t := Host.Outcome.next.inj (hu.symm.trans h)
  have hnone : u.err = none := herr.trans (err_of_inv_live hinv (.inr hrun))
  obtain ⟨hbreak, hend⟩ := break_iff_halted_of_exec h hrun (flag_b_of_inv_live hinv (.inr hrun))
  refine ⟨acts_wf (exec_acts i h) hinv.memWf, hy.trans hinv.yZero, hsp.trans hinv.spZero, hi.trans hinv.interruptClear,
    hd.trans hinv.decimalClear, hunused.trans hinv.unusedClear, hbreak, ?errIff, ?errKind, ?reset⟩
  case errIff => rcases hend with hend | hend <;> simp [hnone, hend]
  case errKind => simp [hnone]
  case reset => rcases hend with hend | hend <;> simp [hend]

/-- The state an action starts from meets the invariant. -/
theorem inv_fetchedState {s : State} (hinv : s.Inv) (hs : live s) (n : Nat) : (fetchedState n s).Inv where
  memWf := hinv.memWf
  yZero := hinv.yZero
  spZero := hinv.spZero
  interruptClear := hinv.interruptClear
  decimalClear := hinv.decimalClear
  unusedClear := hinv.unusedClear
  breakIffHalted := by simp [fetchedState, flag_b_of_inv_live hinv hs]
  errIffFaulted := by simp [fetchedState, err_of_inv_live hinv hs]
  errKind := hinv.errKind
  resetClean := RunState.noConfusion

theorem inv_stepWith {o : Opset} {s t : State} (hinv : s.Inv) (h : stepWith o s = .next t) : t.Inv := by
  cases hterm : s.terminal with
  | true =>
    rw [stepWith_terminal hterm] at h
    cases h
    exact hinv
  | false =>
    have hs := terminal_eq_false_iff_live.1 hterm
    cases stepWith_ends hterm h with
    | raised pc c _ hc ht =>
      subst ht
      exact inv_raise hinv hs pc (hc.imp_left fun h => ⟨_, _, h⟩)
    | executed e i rest _ _ _ ht => exact inv_exec ht (inv_fetchedState hinv hs (1 + operandCount e)) rfl

/-- Settles O38: `step` is the step of one of the profiles. -/
theorem stepKeepsTheInvariant : Obligations.StepKeepsTheInvariant :=
  ⟨fun _ _ hinv h => inv_stepWith hinv h, fun _ _ _ hinv h => inv_stepWith hinv h⟩

/-! ## Every BASE step keeps the stronger invariant -/

/-- C and V are clear, and Z and N not both set (rules R20, R26, R98). -/
def BaseFlags (p : Byte) : Prop :=
  flag .c p = false ∧ flag .v p = false ∧ ¬ (flag .z p = true ∧ flag .n p = true)

theorem baseInv_iff {s : State} : s.BaseInv ↔ s.Inv ∧ BaseFlags s.p :=
  ⟨fun h => ⟨h.toInv, h.carryClear, h.overflowClear, h.notZeroAndNegative⟩, fun ⟨hinv, hc, hv, hzn⟩ => ⟨hinv, hc, hv, hzn⟩⟩

theorem baseFlags_or_break {p : Byte} (h : BaseFlags p) : BaseFlags (p ||| Flag.b.mask) := by
  simpa [BaseFlags] using h

theorem baseFlags_setZN {p r : Byte} (h : BaseFlags p) : BaseFlags (setZN p r) := by
  obtain ⟨hc, hv, -⟩ := h
  obtain ⟨-, -, -, hnotBoth⟩ := setZNForgetsOldFlags p p r
  exact ⟨by rwa [flag_setZN_of_ne (f := .c) p r nofun nofun], by rwa [flag_setZN_of_ne (f := .v) p r nofun nofun], hnotBoth⟩

/-- Settles O39: a BASE action leaves P as `SetZN` of a byte or with Break set, and both keep the flags of BASE. -/
theorem baseStepKeepsItsInvariant : Obligations.BaseStepKeepsItsInvariant := by
  intro s t hinv h
  obtain ⟨hinv, hflags⟩ := baseInv_iff.1 hinv
  refine baseInv_iff.2 ⟨inv_stepWith hinv h, ?_⟩
  cases hterm : s.terminal with
  | true =>
    rw [stepWith_terminal hterm] at h
    cases h
    exact hflags
  | false =>
    cases stepWith_ends hterm h with
    | raised pc c _ _ ht => subst ht; exact hflags
    | executed e i rest hd hi _ ht =>
      obtain ⟨-, hp⟩ := exec_base (isBase_of_dispatch_base hd hi) ht
      rcases hp with hp | ⟨r, hp⟩ <;> rw [hp]
      · exact baseFlags_or_break hflags
      · exact baseFlags_setZN hflags

/-! ## Construction, loads and every reachable state -/

/-- Settles O37: the state of zeros. -/
theorem constructMeetsTheInvariant : Obligations.ConstructMeetsTheInvariant := by
  have hinv : construct.Inv :=
    ⟨reset_wf, rfl, rfl, rfl, rfl, rfl, by decide, by decide, nofun, fun _ => ⟨rfl, rfl, rfl, .inl rfl⟩⟩
  exact ⟨hinv, hinv, rfl, rfl, by decide⟩

/-- A successful load writes memory and PC alone (rule R203). -/
theorem inv_loadedState {program : List Byte} {s : State} (hinv : s.Inv) (hlen : program.length ≤ 0x8000) :
    (loadedState program s).Inv where
  memWf := Memory.writeList_wf hinv.memWf (by simp only [Config.origin, Config.addressSpace, BitVec.toNat_ofNat]; omega)
  yZero := hinv.yZero
  spZero := hinv.spZero
  interruptClear := hinv.interruptClear
  decimalClear := hinv.decimalClear
  unusedClear := hinv.unusedClear
  breakIffHalted := hinv.breakIffHalted
  errIffFaulted := hinv.errIffFaulted
  errKind := hinv.errKind
  resetClean := fun hr => by
    obtain ⟨ha, hx, hp, -⟩ := hinv.resetClean hr
    exact ⟨ha, hx, hp, .inr rfl⟩

/-- Settles O40: a load installs the program or changes nothing. -/
theorem loadKeepsTheInvariant : Obligations.LoadKeepsTheInvariant := by
  intro program s t r h
  obtain ⟨-, hends⟩ := load_ends h
  cases hends with
  | loaded hlen =>
    refine ⟨fun hinv => inv_loadedState hinv hlen, fun hbase => ?_⟩
    obtain ⟨hinv, hflags⟩ := baseInv_iff.1 hbase
    exact baseInv_iff.2 ⟨inv_loadedState hinv hlen, hflags⟩
  | overflow => exact ⟨id, id⟩

/-- The induction over the host's moves (rule R210). -/
theorem reachable_induction {o : Opset} {P : State → Prop} (hconstruct : P construct)
    (hload : ∀ program s t r, load program s = .next (t, r) → P s → P t)
    (hstep : ∀ s t, P s → stepWith o s = .next t → P t) {s : State} (h : Reachable o s) : P s := by
  induction h with
  | constructed => exact hconstruct
  | loaded program s t r _ hl ih => exact hload program s t r hl ih
  | stepped s t _ hs ih => exact hstep s t ih hs

/-- Settles O41: each invariant holds after construction, and loads and steps keep it. -/
theorem reachableStatesMeetTheInvariant : Obligations.ReachableStatesMeetTheInvariant := by
  obtain ⟨hinv, hbase⟩ := constructMeetsTheInvariant
  refine ⟨fun o s => reachable_induction hinv ?load ?step, fun s => reachable_induction hbase ?baseLoad ?baseStep⟩
  case load => exact fun program s t r h => (loadKeepsTheInvariant program s t r h).1
  case step => exact fun s t hs h => inv_stepWith hs h
  case baseLoad => exact fun program s t r h => (loadKeepsTheInvariant program s t r h).2
  case baseStep => exact baseStepKeepsItsInvariant

end Sys2Proof.Proofs
end

section
/-! PROOFS. Where runs end (40_execution_cycle.md rules R100 to R104). Their two ideas: since every step to a live state moves
PC forward, some number of steps ends in a terminal state, and the least such number is the run; and in BASE a step past
one instruction leaves memory, so the next instruction still stands at PC. -/

namespace Sys2Proof.Proofs

open Sys2Proof.Machine Sys2Proof.Claims

/-! ## Terminal states -/

/-- Settles O29: the step is the identity there, the loop of `run` does not start, and the result is read off RUN. -/
theorem terminalStatesNeverChange : Obligations.TerminalStatesNeverChange := by
  intro o s hended
  have hterm := terminal_of_ended hended
  have hstep : stepWith o s = .next s := stepWith_terminal hterm
  have hrun : run o s = .next s := runFor_terminal hterm _
  have hstepCommand : stepCommand o s = .next (s, s.result) := by rw [stepCommand, hstep, withResult]
  refine ⟨hstep, hrun, fun hwell => ?halted, fun hwrong => ?faulted⟩
  case halted =>
    rw [hstepCommand, runCommand_of_run hrun, result_of_endedWell hwell]
    exact ⟨rfl, rfl⟩
  case faulted =>
    rw [hstepCommand, runCommand_of_run hrun, result_of_wentWrong hwrong]
    exact ⟨rfl, rfl⟩

/-! ## Every run ends -/

theorem stepsWith_some (o : Opset) (n : Nat) (s : State) : ∃ t, stepsWith o n s = some t := by
  induction n generalizing s with
  | zero => exact ⟨s, rfl⟩
  | succ n ih =>
    obtain ⟨u, hu⟩ := everyStepHasANextState o s
    obtain ⟨t, ht⟩ := ih u
    exact ⟨t, stepsWith_succ.2 ⟨u, hu, ht⟩⟩

theorem live_or_ended (s : State) : live s ∨ endedWell s ∨ wentWrong s := by
  unfold live endedWell wentWrong
  cases s.run <;> decide

/-- After `n` steps the engine is Halted or Faulted. -/
def EndsAfter (o : Opset) (s : State) (n : Nat) : Prop := ∃ t, stepsWith o n s = some t ∧ (endedWell t ∨ wentWrong t)

theorem live_of_not_endsAfter {o : Opset} {s : State} {n : Nat} (h : ¬ EndsAfter o s n) :
    ∃ u, stepsWith o n s = some u ∧ live u := by
  obtain ⟨u, hu⟩ := stepsWith_some o n s
  exact ⟨u, hu, (live_or_ended u).resolve_right fun hend => h ⟨u, hu, hend⟩⟩

/-- If no number of steps ended the run, there were more live states than addresses. -/
theorem exists_endsAfter (o : Opset) (s : State) : ∃ n, EndsAfter o s n := by
  by_contra hnever
  have hlive : ∀ k, k < 0x10001 → ∃ u, stepsWith o k s = some u ∧ live u := fun k _ =>
    live_of_not_endsAfter fun hk => hnever ⟨k, hk⟩
  have hbound := steps_add_pc_le hlive
  omega

/-- Settles O34: the least number of steps that ends the run; `run` follows it by rule R100. -/
theorem everyRunEnds : Obligations.EveryRunEnds := by
  classical
  intro o s
  have hex := exists_endsAfter o s
  obtain ⟨t, hsteps, hended⟩ := Nat.find_spec hex
  have hlive : ∀ k, k < Nat.find hex → ∃ u, stepsWith o k s = some u ∧ live u := fun k hk =>
    live_of_not_endsAfter (Nat.find_min hex hk)
  have hbound := steps_add_pc_le hlive
  obtain ⟨hrun, hwell, hwrong⟩ := runIsTheSequenceOfItsSteps o s _ t hsteps hended hlive
  exact ⟨Nat.find hex, t, by omega, hsteps, hended, hlive, hrun, hwell, hwrong⟩

/-! ## A BASE sequence that ends in a BRK -/

theorem holdsBytes_congr {s t : State} {addr : Addr} {bs : List Byte} (hmem : t.mem = s.mem)
    (h : holdsBytes s addr bs) : holdsBytes t addr bs :=
  fun k b hk => (State.readByte_congr s t hmem _).trans (h k b hk)

theorem holdsBytes_append_right {s : State} {addr : Addr} {bs cs : List Byte} (h : holdsBytes s addr (bs ++ cs)) :
    holdsBytes s (addr + BitVec.ofNat 16 bs.length) cs := by
  intro k b hk
  have hat := h (bs.length + k) b (by rwa [List.getElem?_append_right (by omega), Nat.add_sub_cancel_left])
  rwa [BitVec.add_assoc, ← BitVec.ofNat_add]

theorem length_encode_le (i : Instr) : (encode i).length ≤ 3 := by
  obtain ⟨e, -, hcount, -⟩ := rowOfInstr i
  have hle := operandCount_le e
  rw [encode, List.length_cons]
  omega

theorem bytesAtPc_getElem (s : State) {k : Nat} (hk : k < (bytesAtPc s).length) :
    (bytesAtPc s)[k] = s.readByte (s.pc + BitVec.ofNat 16 k) := by
  match k, hk with
  | 0, _ => exact congrArg s.readByte (BitVec.add_zero _).symm
  | 1, _ => rfl
  | 2, _ => rfl

/-- An instruction's bytes that stand at PC decode to it: they are the first of the three bytes there. -/
theorem decode_bytesAtPc {o : Opset} {s : State} {i : Instr} {cs : List Byte} (hwf : i.wellFormed o = true)
    (h : holdsBytes s s.pc (encode i ++ cs)) : ∃ rest, decode o (bytesAtPc s) = .ok (i, rest) := by
  have htake : (bytesAtPc s).take (encode i).length = encode i := by
    refine List.ext_getElem (List.length_take_of_le (length_encode_le i)) fun k _ hk => ?_
    rw [List.getElem_take, bytesAtPc_getElem]
    exact h k _ (by rw [List.getElem?_append_left hk, List.getElem?_eq_getElem hk])
  have hsplit : bytesAtPc s = encode i ++ (bytesAtPc s).drop (encode i).length :=
    (List.take_append_drop _ _).symm.trans (congrArg (· ++ _) htake)
  exact ⟨_, (congrArg (decode o) hsplit).trans (decodeOfEncode o i _ hwf)⟩

/-- The step of an instruction whose bytes stand at PC (rule R91). -/
theorem stepWith_of_holdsBytes {o : Opset} {s : State} {i : Instr} {cs : List Byte} (hs : live s)
    (hwf : i.wellFormed o = true) (h : holdsBytes s s.pc (encode i ++ cs)) (hp : s.pc.toNat + (encode i).length ≤ 0xFFFF) :
    stepWith o s = exec i (fetchedState (encode i).length s) := by
  obtain ⟨rest, hdecode⟩ := decode_bytesAtPc hwf h
  exact stepRunsTheDecodedInstruction.1 o s i rest hs hdecode hwf hp

/-- A BASE instruction other than BRK leaves the engine live, memory as it was and PC past it. -/
theorem stepWith_base_of_holdsBytes {s : State} {i : Instr} {cs : List Byte} (hs : live s)
    (hwf : i.wellFormed .base = true) (hne : i ≠ .brk) (h : holdsBytes s s.pc (encode i ++ cs))
    (hp : s.pc.toNat + (encode i).length ≤ 0xFFFF) :
    ∃ u, stepWith .base s = .next u ∧ live u ∧ u.mem = s.mem ∧ u.pc = s.pc + BitVec.ofNat 16 (encode i).length := by
  obtain ⟨u, hu⟩ := exec_next i (fetchedState (encode i).length s)
  have hacts := exec_acts i hu
  obtain ⟨hmem, -⟩ := exec_base hwf hu
  exact ⟨u, (stepWith_of_holdsBytes hs hwf h hp).trans hu, .inr (acts_run hacts hne), hmem, acts_pc hacts⟩

/-- Settles O36: by induction on the instructions, each of which leaves the rest of them at PC. -/
theorem baseSequenceHaltsAtItsBrk : Obligations.BaseSequenceHaltsAtItsBrk := by
  intro s is
  induction is generalizing s with
  | nil =>
    intro hs _ hp h
    have hlast : stepWith .base s = exec .brk (fetchedState 1 s) :=
      stepWith_of_holdsBytes (cs := []) hs rfl h (Nat.succ_le_of_lt hp)
    refine ⟨fun k hk => ?_, _, stepsWith_succ.2 ⟨_, hlast, rfl⟩, rfl⟩
    obtain rfl := Nat.le_zero.1 hk
    exact ⟨s, rfl, hs⟩
  | cons i is ih =>
    intro hs hall hp h
    rw [List.forall_mem_cons] at hall
    obtain ⟨⟨hwf, hne⟩, hall⟩ := hall
    rw [List.flatMap_cons, List.length_append] at hp
    rw [List.flatMap_cons, List.append_assoc] at h
    obtain ⟨u, hstep, hu, hmem, hpc⟩ := stepWith_base_of_holdsBytes hs hwf hne h (by omega)
    have hrest : holdsBytes u u.pc (is.flatMap encode ++ encode .brk) :=
      hpc ▸ holdsBytes_congr hmem (holdsBytes_append_right h)
    have hbound : u.pc.toNat + (is.flatMap encode).length < 0xFFFF := by
      rw [hpc, toNat_add_lit _ (by omega)]
      omega
    obtain ⟨hlive, t, ht, hend⟩ := ih u hu hall hbound hrest
    refine ⟨fun k hk => ?_, t, stepsWith_succ.2 ⟨u, hstep, ht⟩, hend⟩
    cases k with
    | zero => exact ⟨s, rfl, hs⟩
    | succ k =>
      obtain ⟨v, hv, hvlive⟩ := hlive k (Nat.le_of_succ_le_succ hk)
      exact ⟨v, stepsWith_succ.2 ⟨u, hstep, hv⟩, hvlive⟩

end Sys2Proof.Proofs
end

section
/-! PROOFS. Memory as storage (20_memory.md): a list of writes, word accesses, and the program copied by `load`
(50_interfaces.md rule R203). -/

namespace Sys2Proof.Proofs

open Sys2Proof.Machine Sys2Proof.Claims

/-- Settles O43: by induction on the writes; the first one shows only where no later one does. -/
theorem memoryIsPlainStorage : Obligations.MemoryIsPlainStorage := by
  intro writes
  induction writes with
  | nil => exact fun s addr => rfl
  | cons w ws ih =>
    intro s addr
    rw [List.foldl_cons, ih, readByte_writeByte]
    by_cases h : w.1 = addr
    · rw [if_pos h.symm, List.filter_cons_of_pos (by simpa using h), List.getLast?_cons]
      cases (ws.filter fun v => v.1 == addr).getLast? <;> rfl
    · rw [if_neg (Ne.symm h), List.filter_cons_of_neg (by simpa using h)]

/-! ## Words -/

theorem ne_succ (a : Addr) : a ≠ a + 1#16 := by
  intro h
  have hn := congrArg BitVec.toNat h
  rw [BitVec.toNat_add] at hn
  simp only [BitVec.toNat_ofNat] at hn
  omega

theorem readWord_below (s : State) {addr : Addr} (h : addr.toNat < 0xFFFF) :
    s.readWord addr = .next (word (s.readByte (addr + 1#16)) (s.readByte addr)) :=
  if_neg (ne_top_of_lt h)

/-- The state a word write leaves: the low byte first, then the high byte above it (rule R45). -/
def wordWritten (s : State) (addr v : Addr) : State :=
  (s.writeByte addr (v.extractLsb' 0 8)).writeByte (addr + 1#16) (v.extractLsb' 8 8)

theorem writeWord_below (s : State) {addr : Addr} (v : Addr) (h : addr.toNat < 0xFFFF) :
    s.writeWord addr v = .next (wordWritten s addr v) :=
  if_neg (ne_top_of_lt h)

theorem readByte_wordWritten_low (s : State) (addr v : Addr) :
    (wordWritten s addr v).readByte addr = v.extractLsb' 0 8 := by
  rw [wordWritten, readByte_writeByte, if_neg (ne_succ addr), readByte_writeByte_self]

theorem readByte_wordWritten_high (s : State) (addr v : Addr) :
    (wordWritten s addr v).readByte (addr + 1#16) = v.extractLsb' 8 8 :=
  readByte_writeByte_self _ _ _

theorem toNat_low (v : Addr) : (v.extractLsb' 0 8).toNat = v.toNat % 256 := BitVec.extractLsb'_toNat 0 8 v

theorem toNat_high (v : Addr) : (v.extractLsb' 8 8).toNat = v.toNat / 256 := by
  have hlt := v.isLt
  rw [BitVec.extractLsb'_toNat, Nat.shiftRight_eq_div_pow]
  omega

theorem word_high_low (v : Addr) : word (v.extractLsb' 8 8) (v.extractLsb' 0 8) = v := by
  apply BitVec.eq_of_toNat_eq
  rw [toNat_word, toNat_high, toNat_low]
  omega

/-- Settles O44: the two byte accesses a word access is made of do not meet, and the two halves make the word again. -/
theorem wordAccessIsLittleEndian : Obligations.WordAccessIsLittleEndian := by
  intro s addr v
  refine ⟨fun h => ⟨⟨_, readWord_below s h, toNat_word _ _⟩, _, writeWord_below s v h, ?readBack, ?low, ?high, ?others⟩,
    fun h => ?top⟩
  case readBack => rw [readWord_below _ h, readByte_wordWritten_low, readByte_wordWritten_high, word_high_low]
  case low => rw [readByte_wordWritten_low, toNat_low]
  case high => rw [readByte_wordWritten_high, toNat_high]
  case others =>
    intro b hlow hhigh
    rw [wordWritten, readByte_writeByte, if_neg hhigh, readByte_writeByte, if_neg hlow]
  case top =>
    have htop : addr = 0xFFFF#16 := BitVec.eq_of_toNat_eq h
    exact ⟨if_pos htop, if_pos htop⟩

/-! ## The loaded program -/

/-- What memory holds after a successful load: the program from ORIGIN up, the old bytes elsewhere (rule R47). -/
theorem readByte_loadedState (program : List Byte) (s : State) (addr : Addr) :
    (loadedState program s).readByte addr =
      if 0x8000 ≤ addr.toNat then (program[addr.toNat - 0x8000]?).getD (s.readByte addr) else s.readByte addr := by
  have horigin : Config.origin.toNat = 0x8000 := rfl
  rw [loadedState, State.readByte_setPc, State.readByte, State.setMem_mem, Memory.find_writeList, horigin, State.readByte]
  split
  · exact Option.getD_or
  · rfl

/-- Settles O45, case by case of `load`. -/
theorem loadInstallsTheProgram : Obligations.LoadInstallsTheProgram := by
  intro program s
  refine ⟨fun hr hlen => ⟨loadedState program s, load_fits hr hlen, rfl, fun k b hk => ?program, fun addr haddr => ?others,
    rfl, rfl, rfl, rfl, rfl, hr, rfl⟩, fun hr hlen => load_overflows hr hlen, fun hr => load_outside_reset hr⟩
  case program =>
    obtain ⟨hlt, -⟩ := List.getElem?_eq_some_iff.1 hk
    have hat : (BitVec.ofNat 16 (0x8000 + k)).toNat = 0x8000 + k := by
      rw [BitVec.toNat_ofNat]
      omega
    rw [readByte_loadedState, hat, if_pos (by omega), Nat.add_sub_cancel_left, hk, Option.getD_some]
  case others =>
    rw [readByte_loadedState]
    split
    · rw [List.getElem?_eq_none (by omega), Option.getD_none]
    · rfl

end Sys2Proof.Proofs
end

section
/-! PROOFS. The host's commands (50_interfaces.md): what construction leaves, what `step` returns, and `load_and_run`. -/

namespace Sys2Proof.Proofs

open Sys2Proof.Machine Sys2Proof.Claims

/-- Settles O5: the state of zeros, in which no address is listed. -/
theorem constructLeavesZeros : Obligations.ConstructLeavesZeros :=
  ⟨rfl, rfl, rfl, rfl, rfl, rfl, rfl, rfl, fun _ => rfl⟩

/-- No step ends in Reset (rule R90): a live one moves RUN to Running first, and no action writes Reset. -/
theorem run_ne_reset_of_stepWith {o : Opset} {s t : State} (h : stepWith o s = .next t) : t.run ≠ .reset := by
  cases hterm : s.terminal with
  | true =>
    rw [stepWith_terminal hterm] at h
    cases h
    intro hreset
    rw [terminal_eq_false_iff_live.2 (.inl hreset)] at hterm
    exact Bool.noConfusion hterm
  | false =>
    cases stepWith_ends hterm h with
    | raised pc c _ _ ht => subst ht; exact RunState.noConfusion
    | executed e i rest _ _ _ ht =>
      obtain ⟨u, hu, hbrk, hother⟩ := onlyBrkHalts i (fetchedState (1 + operandCount e) s) rfl
      obtain rfl : u = t := Host.Outcome.next.inj (hu.symm.trans ht)
      by_cases hi : i = .brk
      · rw [hbrk hi]; exact RunState.noConfusion
      · rw [hother hi]; exact RunState.noConfusion

/-- Settles O47: the result is read off RUN of the state after the step. -/
theorem stepReturnsWhetherHalted : Obligations.StepReturnsWhetherHalted := by
  intro o s
  obtain ⟨t, ht⟩ := everyStepHasANextState o s
  refine ⟨t, t.result, ht, ?command, result_of_endedWell, fun hrunning => ?running, result_of_wentWrong,
    run_ne_reset_of_stepWith ht⟩
  case command => rw [stepCommand, ht, withResult]
  case running => rw [State.result, hrunning]

/-- Settles O48: `load_and_run` goes on exactly when `load` returned that the program is loaded. -/
theorem loadAndRunIsTheComposition : Obligations.LoadAndRunIsTheComposition := by
  intro o program s
  refine ⟨fun t h => ?loaded, fun t e h => ?overflow, fun hr => ?refused⟩
  case loaded => rw [loadAndRun, h]; rfl
  case overflow =>
    obtain ⟨-, hends⟩ := load_ends h
    cases hends
    refine ⟨rfl, rfl, ?_⟩
    rw [loadAndRun, h]
    rfl
  case refused => rw [loadAndRun, load_outside_reset hr]

end Sys2Proof.Proofs
end

section
/-! PROOFS. The accesses of a step (20_memory.md rules R51, R63; 45_ext_addressing.md rule R152). Their two ideas: the action
of an instruction writes the one byte its access list says, or none; and every byte the fetch, the resolver or the action
uses is among the reads of the list, so a memory that agrees on those changes nothing but memory. -/

namespace Sys2Proof.Proofs

open Sys2Proof.Machine Sys2Proof.Claims

theorem stepAccesses_terminal {o : Opset} {s : State} (h : s.terminal = true) : stepAccesses o s = [] :=
  if_pos h

theorem stepAccesses_live {o : Opset} {s : State} (h : s.terminal = false) :
    stepAccesses o s = fetchAccesses o s ++ actionAccesses (fetchInstr o (s.setRun .running)) := by
  rw [stepAccesses, h]
  rfl

/-- What the fetch of an instruction can end in (rule R230). -/
inductive FetchEnds (o : Opset) (s : State) : Fetched Instr → Prop where
  /-- A condition was raised. -/
  | raised (pc : Addr) (c : Condition) : FetchEnds o s (.raised ((s.setPc pc).raise c))
  /-- The instruction at PC was fetched, and PC is past it. -/
  | got (e : Entry) (i : Instr) (rest : List Byte) (hd : dispatch o (s.readByte s.pc) = some e)
      (hi : instrAt s e = some (i, rest)) :
      FetchEnds o s (.got i (s.setPc (s.pc + BitVec.ofNat 16 (1 + operandCount e))))

theorem fetchInstr_ends (o : Opset) (s : State) : FetchEnds o s (fetchInstr o s) := by
  by_cases htop : s.pc = 0xFFFF#16
  · rw [fetchInstr_top o htop]
    exact .raised s.pc _
  · have hpc := lt_top_of_ne htop
    cases hd : dispatch o (s.readByte s.pc) with
    | none =>
      rw [fetchInstr_unimplemented hpc hd]
      exact .raised _ _
    | some e =>
      by_cases hover : 0xFFFF < s.pc.toNat + 1 + operandCount e
      · rw [fetchInstr_operand_raised hpc hd hover]
        exact .raised _ _
      · obtain ⟨i, rest, hi⟩ := instrAt_some s e
        rw [fetchInstr_got hd hi (by omega)]
        exact .got e i rest hd hi

/-- The accesses of an action by its operand: the resolver's reads, then the data read, then the write (rule R152). -/
theorem execAccesses_of_memOperand {i : Instr} {s : State} {m : MemOperand} (hm : memOperand i = some m) :
    execAccesses i s = resolverReads s m ++ (if readsData i then [.read (effectiveAddress s m)] else []) ++
      ((storedByte s m i).map fun v => .write (effectiveAddress s m) v).toList := by
  rw [execAccesses, hm]
  cases hv : storedByte s m i <;> simp [hv]

/-! ## The writes of the list -/

/-- The write an instruction's action makes, if it makes one: STA, and ASL and LSR on memory (rule R152 part 5). -/
def storeOf (i : Instr) (s : State) : Option (Addr × Byte) :=
  (memOperand i).bind fun m => (storedByte s m i).map fun v => (effectiveAddress s m, v)

theorem write_not_mem_resolverReads (s : State) (m : MemOperand) (addr : Addr) (v : Byte) :
    .write addr v ∉ resolverReads s m := by
  cases m <;> simp [resolverReads, pointerReads]

theorem write_not_mem_streamReads (n : Nat) (start addr : Addr) (v : Byte) : .write addr v ∉ streamReads n start := by
  induction n generalizing start with
  | zero => exact List.not_mem_nil
  | succ n ih =>
    rw [streamReads]
    split <;> simp [ih]

theorem write_not_mem_fetchAccesses (o : Opset) (s : State) (addr : Addr) (v : Byte) :
    .write addr v ∉ fetchAccesses o s := by
  rw [fetchAccesses]
  split
  · simp
  · split <;> simp [write_not_mem_streamReads]

theorem write_mem_execAccesses_iff {i : Instr} {s : State} {addr : Addr} {v : Byte} :
    .write addr v ∈ execAccesses i s ↔ storeOf i s = some (addr, v) := by
  cases hm : memOperand i with
  | none => simp [execAccesses, storeOf, hm]
  | some m =>
    rw [execAccesses_of_memOperand hm, storeOf, hm, Option.bind_some]
    cases storedByte s m i <;> cases readsData i <;> simp [write_not_mem_resolverReads, eq_comm]

/-- An action leaves memory with the write of the list made, or as it was. -/
theorem exec_mem {i : Instr} {s t : State} (h : exec i s = .next t) :
    t.mem = ((storeOf i s).elim s fun w => s.writeByte w.1 w.2).mem := by
  cases i <;> (cases h; rfl)

/-- What an address holds after an action, by the action's accesses. -/
theorem readByte_exec {i : Instr} {s t : State} (h : exec i s = .next t) (addr : Addr) :
    (∃ v, .write addr v ∈ execAccesses i s ∧ t.readByte addr = v) ∨
      ((∀ v, .write addr v ∉ execAccesses i s) ∧ t.readByte addr = s.readByte addr) := by
  simp only [write_mem_execAccesses_iff, State.readByte_congr _ t (exec_mem h) addr]
  cases hw : storeOf i s with
  | none => exact .inr ⟨nofun, rfl⟩
  | some w =>
    obtain ⟨ea, v⟩ := w
    rw [Option.elim, readByte_writeByte]
    by_cases haddr : addr = ea
    · exact .inl ⟨v, haddr ▸ rfl, if_pos haddr⟩
    · exact .inr ⟨fun _ heq => haddr (congrArg Prod.fst (Option.some.inj heq)).symm, if_neg haddr⟩

/-- Settles O49: the fetch reads only, and then the action writes what its accesses say. -/
theorem accessListWrites : Obligations.AccessListWrites := by
  intro o s
  cases hterm : s.terminal with
  | true =>
    refine ⟨s, stepWith_terminal hterm, fun addr => .inr ⟨fun v => ?_, rfl⟩⟩
    rw [stepAccesses_terminal hterm]
    exact List.not_mem_nil
  | false =>
    simp only [stepsTo, stepWith_live hterm, stepAccesses_live hterm, List.mem_append, write_not_mem_fetchAccesses, false_or]
    have hends := fetchInstr_ends o (s.setRun .running)
    generalize fetchInstr o (s.setRun .running) = f at hends ⊢
    cases hends with
    | raised pc c => exact ⟨_, rfl, fun addr => .inr ⟨fun v => List.not_mem_nil, rfl⟩⟩
    | got e i rest =>
      obtain ⟨t, ht⟩ := exec_next i (fetchedState (1 + operandCount e) s)
      exact ⟨t, ht, readByte_exec ht⟩

/-! ## The reads of the list -/

/-- Memory `m` holds the same bytes as the state's at every address the accesses read. -/
def AgreesOn (l : List Access) (s : State) (m : Memory) : Prop :=
  ∀ addr, reads l addr → (s.setMem m).readByte addr = s.readByte addr

theorem AgreesOn.left {l l' : List Access} {s : State} {m : Memory} (h : AgreesOn (l ++ l') s m) : AgreesOn l s m :=
  fun addr hr => h addr (List.mem_append_left l' hr)

theorem AgreesOn.right {l l' : List Access} {s : State} {m : Memory} (h : AgreesOn (l ++ l') s m) : AgreesOn l' s m :=
  fun addr hr => h addr (List.mem_append_right l hr)

/-- The result of a fetch with another memory in the state. -/
def withMem (m : Memory) : Fetched Instr → Fetched Instr
  | .got i s => .got i (s.setMem m)
  | .raised s => .raised (s.setMem m)

theorem readByte_pc_of_agreesOn {o : Opset} {s : State} {m : Memory} (h : AgreesOn (fetchAccesses o s) s m) :
    (s.setMem m).readByte s.pc = s.readByte s.pc :=
  h s.pc List.mem_cons_self

/-- An entry makes the same instruction of bytes that agree where it takes operands. -/
theorem assemble_congr {e : Entry} {b c b' c' : Byte} {i : Instr} {rest : List Byte}
    (h : e.assemble [b, c] = some (i, rest)) (hb : 1 ≤ operandCount e → b' = b) (hc : 2 ≤ operandCount e → c' = c) :
    ∃ rest', e.assemble [b', c'] = some (i, rest') := by
  cases e with
  | imp j | acc j => cases h; exact ⟨_, rfl⟩
  | imm f | zpg f => rw [hb (Nat.le_refl 1)]; cases h; exact ⟨_, rfl⟩
  | abs f => rw [hb (Nat.le_succ 1), hc (Nat.le_refl 2)]; cases h; exact ⟨_, rfl⟩

/-- The operand reads of an instruction that ends below 0xFFFF. -/
theorem fetchAccesses_below {o : Opset} {s : State} {e : Entry} (hpc : s.pc ≠ 0xFFFF#16)
    (hd : dispatch o (s.readByte s.pc) = some e) :
    fetchAccesses o s = .read s.pc :: streamReads (operandCount e) (s.pc + 1#16) := by
  rw [fetchAccesses, if_neg hpc, hd]

theorem read_mem_streamReads_first {n : Nat} {addr : Addr} (hn : 1 ≤ n) : .read addr ∈ streamReads n addr := by
  obtain ⟨n, rfl⟩ := Nat.exists_eq_add_of_le' hn
  exact List.mem_cons_self

theorem read_mem_streamReads_second {n : Nat} {addr : Addr} (hn : 2 ≤ n) (hne : addr ≠ 0xFFFF#16) :
    .read (addr + 1#16) ∈ streamReads n addr := by
  obtain ⟨n, rfl⟩ := Nat.exists_eq_add_of_le' hn
  rw [streamReads, if_neg hne]
  exact List.mem_cons_of_mem _ (read_mem_streamReads_first (Nat.le_add_left 1 n))

/-- The fetch depends on the bytes it reads alone. -/
theorem fetchInstr_setMem {o : Opset} {s : State} {m : Memory} (h : AgreesOn (fetchAccesses o s) s m) :
    fetchInstr o (s.setMem m) = withMem m (fetchInstr o s) := by
  have hop := readByte_pc_of_agreesOn h
  by_cases htop : s.pc = 0xFFFF#16
  · rw [fetchInstr_top o (s := s.setMem m) htop, fetchInstr_top o htop]
    rfl
  · have hpc := lt_top_of_ne htop
    cases hd : dispatch o (s.readByte s.pc) with
    | none =>
      rw [fetchInstr_unimplemented (s := s.setMem m) hpc (hop.symm ▸ hd), fetchInstr_unimplemented hpc hd, State.setMem_pc, hop]
      rfl
    | some e =>
      have hd' : dispatch o ((s.setMem m).readByte s.pc) = some e := hop.symm ▸ hd
      by_cases hover : 0xFFFF < s.pc.toNat + 1 + operandCount e
      · rw [fetchInstr_operand_raised (s := s.setMem m) hpc hd' hover, fetchInstr_operand_raised hpc hd hover]
        rfl
      · obtain ⟨i, rest, hi⟩ := instrAt_some s e
        rw [fetchAccesses_below htop hd] at h
        have h1 := toNat_add_lit (a := s.pc) 1 (by omega)
        have hsecond (hn : 2 ≤ operandCount e) : .read (s.pc + 2#16) ∈ streamReads (operandCount e) (s.pc + 1#16) := by
          have hmem := read_mem_streamReads_second hn (ne_top_of_lt (a := s.pc + 1#16) (by omega))
          rwa [BitVec.add_assoc] at hmem
        obtain ⟨rest', hi'⟩ := assemble_congr hi
          (fun hn => h _ (List.mem_cons_of_mem _ (read_mem_streamReads_first hn)))
          (fun hn => h _ (List.mem_cons_of_mem _ (hsecond hn)))
        rw [fetchInstr_got hd hi (by omega), fetchInstr_got (s := s.setMem m) hd' hi' (by rw [State.setMem_pc]; omega)]
        rfl

theorem fetchAccesses_setMem {o : Opset} {s : State} {m : Memory} (h : AgreesOn (fetchAccesses o s) s m) :
    fetchAccesses o (s.setMem m) = fetchAccesses o s := by
  rw [fetchAccesses, fetchAccesses, State.setMem_pc, readByte_pc_of_agreesOn h]

/-! ### The action -/

theorem resolverReads_setMem (s : State) (m : Memory) (mo : MemOperand) :
    resolverReads (s.setMem m) mo = resolverReads s mo := by
  cases mo <;> rfl

theorem pointerAt_setMem {s : State} {m : Memory} {b : Byte} (h : AgreesOn (pointerReads b) s m) :
    pointerAt (s.setMem m) b = pointerAt s b := by
  rw [pointerAt, h _ (by simp [reads, pointerReads]), h _ (by simp [reads, pointerReads]), pointerAt]

/-- The effective address depends on the bytes of the pointer alone. -/
theorem effectiveAddress_setMem {s : State} {m : Memory} {mo : MemOperand} (h : AgreesOn (resolverReads s mo) s m) :
    effectiveAddress (s.setMem m) mo = effectiveAddress s mo := by
  cases mo with
  | zp z | zpX z | abs l u | absX l u | absY l u => rfl
  | indX z => exact pointerAt_setMem h
  | indY z => exact congrArg (· + s.y.zeroExtend 16) (pointerAt_setMem h)

/-- Where an instruction reads data, the byte read is the same. -/
def SameOperandByte (i : Instr) (s : State) (m : Memory) : Prop :=
  ∀ mo, memOperand i = some mo → readsData i = true → operandByte (s.setMem m) mo = operandByte s mo

theorem sameOperandByte_of_agreesOn {i : Instr} {s : State} {m : Memory} (h : AgreesOn (execAccesses i s) s m) :
    SameOperandByte i s m := by
  intro mo hmo hreads
  rw [execAccesses_of_memOperand hmo, hreads] at h
  rw [operandByte, effectiveAddress_setMem h.left.left]
  exact h.left.right _ List.mem_cons_self

theorem storedByte_setMem {i : Instr} {s : State} {m : Memory} {mo : MemOperand} (hmo : memOperand i = some mo)
    (h : SameOperandByte i s m) : storedByte (s.setMem m) mo i = storedByte s mo i := by
  have hbyte := h mo hmo
  cases i with
  | aslZp | aslZpX | aslAbs | aslAbsX | lsrZp | lsrZpX | lsrAbs | lsrAbsX =>
    rw [storedByte, storedByte, hbyte rfl]
  | _ => rfl

theorem execAccesses_setMem {i : Instr} {s : State} {m : Memory} (h : AgreesOn (execAccesses i s) s m) :
    execAccesses i (s.setMem m) = execAccesses i s := by
  have hbyte := sameOperandByte_of_agreesOn h
  cases hmo : memOperand i with
  | none => rw [execAccesses, execAccesses, hmo]
  | some mo =>
    rw [execAccesses_of_memOperand hmo] at h
    rw [execAccesses_of_memOperand hmo, execAccesses_of_memOperand hmo, resolverReads_setMem,
      effectiveAddress_setMem h.left.left, storedByte_setMem hmo hbyte]

/-- The two states differ in memory alone. -/
def SameButMem (s t : State) : Prop := t = s.setMem t.mem

theorem sameButMem_shiftLeftMem {s : State} {m : Memory} {mo : MemOperand}
    (h : operandByte (s.setMem m) mo = operandByte s mo) :
    SameButMem (shiftLeftMem mo s) (shiftLeftMem mo (s.setMem m)) := by
  rw [shiftLeftMem, shiftLeftMem, h]
  rfl

theorem sameButMem_shiftRightMem {s : State} {m : Memory} {mo : MemOperand}
    (h : operandByte (s.setMem m) mo = operandByte s mo) :
    SameButMem (shiftRightMem mo s) (shiftRightMem mo (s.setMem m)) := by
  rw [shiftRightMem, shiftRightMem, h]
  rfl

theorem sameButMem_testBits {s : State} {m : Memory} {mo : MemOperand}
    (h : operandByte (s.setMem m) mo = operandByte s mo) : SameButMem (testBits mo s) (testBits mo (s.setMem m)) := by
  rw [testBits, testBits, h]
  rfl

/-- An action that uses memory only through a byte it is given. -/
theorem sameButMem_of_byte {act : Byte → State → State} {s : State} {m : Memory} {v v' : Byte}
    (hact : SameButMem (act v s) (act v (s.setMem m))) (h : v' = v) : SameButMem (act v s) (act v' (s.setMem m)) :=
  h ▸ hact

/-- An action depends on no byte of memory but its operand byte, except where it writes. -/
theorem exec_setMem {i : Instr} {s : State} {m : Memory} (h : SameOperandByte i s m) :
    ∃ t u, exec i s = .next t ∧ exec i (s.setMem m) = .next u ∧ SameButMem t u := by
  cases i with
  | ldaZp | ldaZpX | ldaAbs | ldaAbsX | ldaAbsY | ldaIndX | ldaIndY =>
    exact ⟨_, _, rfl, rfl, sameButMem_of_byte (act := loadA) rfl (h _ rfl rfl)⟩
  | adcZp | adcZpX | adcAbs | adcAbsX | adcAbsY | adcIndX | adcIndY =>
    exact ⟨_, _, rfl, rfl, sameButMem_of_byte (act := addToA) rfl (h _ rfl rfl)⟩
  | sbcZp | sbcZpX | sbcAbs | sbcAbsX | sbcAbsY | sbcIndX | sbcIndY =>
    exact ⟨_, _, rfl, rfl, sameButMem_of_byte (act := subFromA) rfl (h _ rfl rfl)⟩
  | aslZp | aslZpX | aslAbs | aslAbsX => exact ⟨_, _, rfl, rfl, sameButMem_shiftLeftMem (h _ rfl rfl)⟩
  | lsrZp | lsrZpX | lsrAbs | lsrAbsX => exact ⟨_, _, rfl, rfl, sameButMem_shiftRightMem (h _ rfl rfl)⟩
  | bitZp | bitAbs => exact ⟨_, _, rfl, rfl, sameButMem_testBits (h _ rfl rfl)⟩
  | _ => exact ⟨_, _, rfl, rfl, rfl⟩

/-- What a fetch result leads to depends on the bytes the action reads alone. -/
theorem finish_withMem {f : Fetched Instr} {m : Memory} (h : ∀ i u, f = .got i u → AgreesOn (execAccesses i u) u m) :
    actionAccesses (withMem m f) = actionAccesses f ∧
      ∃ t u, finish f = .next t ∧ finish (withMem m f) = .next u ∧ SameButMem t u := by
  cases f with
  | raised u => exact ⟨rfl, _, _, rfl, rfl, rfl⟩
  | got i u =>
    have hagree := h i u rfl
    exact ⟨execAccesses_setMem hagree, exec_setMem (sameOperandByte_of_agreesOn hagree)⟩

/-- The fetch keeps memory, so agreement with the state before is agreement with the state the action starts from. -/
theorem agreesOn_of_fetchInstr {o : Opset} {s u : State} {i : Instr} {l : List Access} {m : Memory}
    (hf : fetchInstr o s = .got i u) (h : AgreesOn l s m) : AgreesOn l u m := by
  have hends := fetchInstr_ends o s
  rw [hf] at hends
  cases hends
  exact h

/-- Settles O50: the fetch, the accesses and the action, each by the bytes it reads. -/
theorem stepReadsOnlyItsAccesses : Obligations.StepReadsOnlyItsAccesses := by
  intro o s m h
  cases hterm : s.terminal with
  | true =>
    have hterm' : (s.setMem m).terminal = true := hterm
    rw [stepAccesses_terminal hterm, stepAccesses_terminal hterm']
    exact ⟨rfl, s, s.setMem m, stepWith_terminal hterm, stepWith_terminal hterm', rfl⟩
  | false =>
    have hterm' : (s.setMem m).terminal = false := hterm
    have hagree : AgreesOn (fetchAccesses o s ++ actionAccesses (fetchInstr o (s.setRun .running))) (s.setRun .running) m :=
      stepAccesses_live hterm ▸ h
    have hfetch : fetchInstr o ((s.setMem m).setRun .running) = withMem m (fetchInstr o (s.setRun .running)) :=
      fetchInstr_setMem (s := s.setRun .running) hagree.left
    have haccesses : fetchAccesses o (s.setMem m) = fetchAccesses o s := fetchAccesses_setMem hagree.left
    rw [stepAccesses_live hterm, stepAccesses_live hterm', stepWith_live hterm, stepWith_live hterm', hfetch, haccesses]
    have hright := hagree.right
    obtain ⟨haction, hsteps⟩ := finish_withMem (f := fetchInstr o (s.setRun .running)) (m := m)
      fun i u hf => agreesOn_of_fetchInstr hf (by rwa [hf] at hright)
    exact ⟨congrArg _ haction, hsteps⟩

/-! ## The accesses of a BASE step -/

/-- LDA is the one BASE row with an operand byte (rule R74). -/
theorem operandCount_of_dispatch_base {op : Byte} {e : Entry} (h : dispatch .base op = some e) :
    operandCount e = if op = 0xA9#8 then 1 else 0 := by
  have hrows : ∀ r ∈ baseTable, operandCount r.entry = if r.opcode = 0xA9#8 then 1 else 0 := by
    simp [baseTable, operandCount]
  obtain ⟨r, hr, rfl⟩ := Option.map_eq_some_iff.1 h
  have hop : r.opcode = op := by simpa using List.find?_some hr
  exact hop ▸ hrows r (List.mem_of_find?_eq_some hr)

/-- No BASE action accesses memory. -/
theorem execAccesses_of_isBase {s : State} : ∀ {i : Instr}, i.isBase = true → execAccesses i s = []
  | .brk, _ => rfl
  | .ldaImm _, _ => rfl
  | .tax, _ => rfl
  | .inx, _ => rfl

theorem actionAccesses_base (s : State) : actionAccesses (fetchInstr .base s) = [] := by
  have hends := fetchInstr_ends .base s
  generalize fetchInstr .base s = f at hends ⊢
  cases hends with
  | raised pc c => rfl
  | got e i rest hd hi => exact execAccesses_of_isBase (isBase_of_dispatch_base hd hi)

/-- Settles O51: the stream reads of the byte's row, and no others. -/
theorem baseAccessOrder : Obligations.BaseAccessOrder := by
  intro s hs
  rw [stepAccesses_live (terminal_eq_false_iff_live.2 hs), actionAccesses_base, List.append_nil]
  by_cases htop : s.pc = 0xFFFF#16
  · rw [fetchAccesses, if_pos htop, if_neg fun h => ne_top_of_lt h.2 htop]
  · have hpc := lt_top_of_ne htop
    cases hd : dispatch .base (s.readByte s.pc) with
    | none =>
      have hne : s.readByte s.pc ≠ 0xA9#8 := fun h => by
        rw [h] at hd
        cases hd
      rw [fetchAccesses, if_neg htop, hd, if_neg fun h => hne h.1]
    | some e =>
      rw [fetchAccesses_below htop hd, operandCount_of_dispatch_base hd]
      by_cases hop : s.readByte s.pc = 0xA9#8
      · rw [if_pos hop, if_pos ⟨hop, hpc⟩, streamReads, streamReads, ite_self]
      · rw [if_neg hop, if_neg fun h => hop h.1, streamReads]

end Sys2Proof.Proofs
end
